-- ==== Sys2Proof/Word.lean ====
section
/-! DEFINITION. The two data widths of the block: the byte (u8) and the 32-bit word (u32) of 00_scope.md R11 and R13. -/

namespace Sys2Proof

/-- A `u8` (00_scope.md R13): a byte of payload memory, keystream, password, or an immediate. -/
abbrev Byte := BitVec 8

/-- A `u32` (00_scope.md R11, R13): a register, a command word, a payload offset as the host sees it. -/
abbrev Word := BitVec 32

end Sys2Proof
end

