-- ==== Sys2Proof/Syntax.lean ====
section
/-! DEFINITION. The twelve commands of the block as syntax, one constructor per row of spec/opcode_table.json (30_encoding.md R89). -/

namespace Sys2Proof

/-- A command (30_encoding.md R89), with its operands as R88 reads them. -/
inductive Instr where
  /-- 43_control.md R170. -/
  | clear
  /-- 40_password_keystream.md R110. -/
  | pwclr
  /-- 40_password_keystream.md R111, `imm8` the password byte. -/
  | pwpush (imm8 : Byte)
  /-- 40_password_keystream.md R114. -/
  | ksgen
  /-- 40_password_keystream.md R119. -/
  | ksclr
  /-- 40_password_keystream.md R120, `imm8` the keystream byte. -/
  | kspush (imm8 : Byte)
  /-- 40_password_keystream.md R121, `idx24` an unsigned index used as it is (R88). -/
  | ksrd (idx24 : Nat)
  /-- 41_blockchain.md R140, `c` the coupling bit (R142). -/
  | enc (c : Bool)
  /-- 41_blockchain.md R141, `c` the coupling bit (R142). -/
  | dec (c : Bool)
  /-- 42_checksum.md R151. -/
  | crcinit
  /-- 42_checksum.md R152, `imm8` the byte to fold. -/
  | crcb (imm8 : Byte)
  /-- 42_checksum.md R153. -/
  | crcscan
  deriving DecidableEq, Repr

end Sys2Proof
end

