-- ==== Sys2Proof/WellFormed.lean ====
section
/-! DEFINITION. Which commands have an encoding: the operand ranges of 30_encoding.md R87, R88. -/

namespace Sys2Proof

/-- The command can be written as a command word. `imm8` and `c` fit their fields by their types; the index of `KSRD` must be in
`0 .. 2^24 - 1` (30_encoding.md R88). -/
def WellFormed : Instr → Bool
  | .ksrd idx24 => decide (idx24 < 2 ^ 24)
  | .clear => true
  | .pwclr => true
  | .pwpush _ => true
  | .ksgen => true
  | .ksclr => true
  | .kspush _ => true
  | .enc _ => true
  | .dec _ => true
  | .crcinit => true
  | .crcb _ => true
  | .crcscan => true

end Sys2Proof
end

