-- ==== Sys2Proof/Decode.lean ====
section
/-! DEFINITION. The command word (30_encoding.md R86 to R91): the decoder, total on 32-bit words and rejecting by name, the encoder, and the
opcode map of R89 as data. -/

namespace Sys2Proof

/-- Why a word is no command (30_encoding.md R90). Both raise `IllegalCommand`; the names only say which clause of R90 applies. -/
inductive DecodeReject where
  /-- The `op` field is not one of the twelve. -/
  | unknownOpcode
  /-- The `op` field is listed and a must-be-zero bit is set. -/
  | mbzSet
  deriving DecidableEq, Repr

/-- Field `op`, bits 31:24 (R86). -/
def opField (w : Word) : Byte := w.extractLsb' 24 8

/-- Field `arg`, bits 23:0 (R86). -/
def argField (w : Word) : BitVec 24 := w.extractLsb' 0 24

/-- Format `N` (R87): the whole operand field must be zero. -/
def decodeN (w : Word) (i : Instr) : Except DecodeReject Instr :=
  if argField w = 0#24 then .ok i else .error .mbzSet

/-- Format `B` (R87, R88): `imm8` in bits 7:0, bits 23:8 must be zero. -/
def decodeB (w : Word) (mk : Byte → Instr) : Except DecodeReject Instr :=
  if w.extractLsb' 8 16 = 0#16 then .ok (mk (w.extractLsb' 0 8)) else .error .mbzSet

/-- Format `X` (R87, R88): `idx24` is the whole operand field, unsigned. -/
def decodeX (w : Word) (mk : Nat → Instr) : Except DecodeReject Instr :=
  .ok (mk (argField w).toNat)

/-- Format `F` (R87, R88): `c` in bit 0, bits 23:1 must be zero. -/
def decodeF (w : Word) (mk : Bool → Instr) : Except DecodeReject Instr :=
  if w.extractLsb' 1 23 = 0#23 then .ok (mk (w.getLsbD 0)) else .error .mbzSet

/-- The decoder (R89 to R91). -/
def decode (w : Word) : Except DecodeReject Instr :=
  match (opField w).toNat with
  | 0x01 => decodeN w .clear
  | 0x10 => decodeN w .pwclr
  | 0x11 => decodeB w .pwpush
  | 0x20 => decodeN w .ksgen
  | 0x21 => decodeN w .ksclr
  | 0x22 => decodeB w .kspush
  | 0x23 => decodeX w .ksrd
  | 0x30 => decodeF w .enc
  | 0x31 => decodeF w .dec
  | 0x40 => decodeN w .crcinit
  | 0x41 => decodeB w .crcb
  | 0x42 => decodeN w .crcscan
  | _ => .error .unknownOpcode

/-- A word of format `N`. -/
def wordN (op : Byte) : Word := op ++ 0#24

/-- A word of format `B`. -/
def wordB (op imm8 : Byte) : Word := op ++ 0#16 ++ imm8

/-- A word of format `X`. -/
def wordX (op : Byte) (idx24 : BitVec 24) : Word := op ++ idx24

/-- A word of format `F`. -/
def wordF (op : Byte) (c : Bool) : Word := op ++ 0#23 ++ BitVec.ofBool c

/-- The encoder: the command word of a well-formed command (R86, R87, R89). -/
def encode : Instr → Word
  | .clear => wordN 0x01
  | .pwclr => wordN 0x10
  | .pwpush b => wordB 0x11 b
  | .ksgen => wordN 0x20
  | .ksclr => wordN 0x21
  | .kspush b => wordB 0x22 b
  | .ksrd i => wordX 0x23 (BitVec.ofNat 24 i)
  | .enc c => wordF 0x30 c
  | .dec c => wordF 0x31 c
  | .crcinit => wordN 0x40
  | .crcb b => wordB 0x41 b
  | .crcscan => wordN 0x42

/-- A row of the opcode map of R89: a word is the command exactly when `(w and mask) = pattern`. -/
structure OpcodeRow where
  mnemonic : String
  pattern : Word
  mask : Word
  deriving DecidableEq, Repr

/-- Whether the word is the row's command (R89). -/
def OpcodeRow.covers (r : OpcodeRow) (w : Word) : Bool := w &&& r.mask == r.pattern

/-- The row of a command in the opcode map of R89, column by column. -/
def rowOf : Instr → OpcodeRow
  | .clear => ⟨"CLEAR", 0x01000000, 0xFFFFFFFF⟩
  | .pwclr => ⟨"PWCLR", 0x10000000, 0xFFFFFFFF⟩
  | .pwpush _ => ⟨"PWPUSH", 0x11000000, 0xFFFFFF00⟩
  | .ksgen => ⟨"KSGEN", 0x20000000, 0xFFFFFFFF⟩
  | .ksclr => ⟨"KSCLR", 0x21000000, 0xFFFFFFFF⟩
  | .kspush _ => ⟨"KSPUSH", 0x22000000, 0xFFFFFF00⟩
  | .ksrd _ => ⟨"KSRD", 0x23000000, 0xFF000000⟩
  | .enc _ => ⟨"ENC", 0x30000000, 0xFFFFFFFE⟩
  | .dec _ => ⟨"DEC", 0x31000000, 0xFFFFFFFE⟩
  | .crcinit => ⟨"CRCINIT", 0x40000000, 0xFFFFFFFF⟩
  | .crcb _ => ⟨"CRCB", 0x41000000, 0xFFFFFF00⟩
  | .crcscan => ⟨"CRCSCAN", 0x42000000, 0xFFFFFFFF⟩

/-- The twelve rows of R89. -/
def opcodeMap : List OpcodeRow :=
  [rowOf .clear, rowOf .pwclr, rowOf (.pwpush 0), rowOf .ksgen, rowOf .ksclr, rowOf (.kspush 0),
   rowOf (.ksrd 0), rowOf (.enc false), rowOf (.dec false), rowOf .crcinit, rowOf (.crcb 0), rowOf .crcscan]

/-- The command the decoder reads from the word numbered as spec/opcode_table.json numbers it. Every command is one 32-bit word (R86), so the
table's bit count plays no part; a number that is no 32-bit word is no command. -/
def decodeTableWord (_nbits w : Nat) : Option Instr :=
  if w < 2 ^ 32 then
    match decode (BitVec.ofNat 32 w) with
    | .ok i => some i
    | .error _ => none
  else none

end Sys2Proof
end

