-- ==== Sys2Proof/Config.lean ====
section
/-! DEFINITION. The implementation parameters of 00_scope.md R7 to R10, which the spec leaves open: constants with no body, so that no proof can
see their values. Machine/State.lean puts them into the machine right after reset; every other state may hold any values. -/

namespace Sys2Proof

/-- `HEX_CASE` (00_scope.md R9): how the hex digits ten to fifteen of the digest are rendered. -/
inductive HexCase where
  | upper
  | lower
  deriving DecidableEq, Repr, Inhabited

namespace Config

/-- `BLOCK_SIZE - 1`: open (00_scope.md R7, 92_eei_decisions.md D4; log entry 1). -/
opaque blockSizeLess1 : BitVec 24

/-- `BLOCK_SIZE`, in `1 .. 2^24` (00_scope.md R7). -/
def blockSize : Nat := blockSizeLess1.toNat + 1

/-- `PW_MAX - 1`: open (00_scope.md R8, 92_eei_decisions.md D5; log entry 1). -/
opaque pwMaxLess1 : Fin 4294967295

/-- `PW_MAX`, in `1 .. 2^32 - 1` (00_scope.md R8). -/
def pwMax : Nat := pwMaxLess1.val + 1

/-- `HEX_CASE`: open (00_scope.md R9, 92_eei_decisions.md D16; log entry 1). -/
opaque hexCase : HexCase

/-- The payload offsets the platform lets the engine read but not write (20_memory.md R65): open (log entry 2). -/
opaque readOnly : List Nat

end Config

end Sys2Proof
end

