-- ==== Sys2Proof/Machine/State.lean ====
section
/-! DEFINITION. The state of the block (10_state.md R22 to R37), payload memory as a partial map (00_scope.md R10), the model's record of the host,
the reasons a step can stop, and the state right after reset (70_reset_and_hazards.md R231). -/

namespace Sys2Proof.Machine

/-- `STATUS.PASS` (10_state.md R30). -/
inductive Pass where
  /-- No traversal has started since reset or `CLEAR`. -/
  | idle
  /-- In the top pass. -/
  | top
  /-- In the bottom pass. -/
  | bottom
  /-- The last traversal completed both passes. -/
  | done
  deriving DecidableEq, Repr

/-- `STATUS.CAUSE` (60_exceptions.md R200). -/
inductive Cause where
  /-- No fault: the value whenever `FAILED = 0`. -/
  | noFault
  /-- A word written to `CMD` that is no command (R201). -/
  | illegalCommand
  /-- `BS * BCNT > PLEN` (R202). -/
  | sizeUnderflow
  /-- `KSLEN` is not `BS` (R203). -/
  | keystreamLength
  /-- A read of a non-backed payload offset (R204). -/
  | invalidStreamRead
  /-- A write to a payload offset that does not take it (R205). -/
  | invalidStreamWrite
  /-- A push into a full buffer (R206). -/
  | bufferOverflow
  /-- `KSRD` at or beyond `KSLEN` (R207). -/
  | indexRange
  /-- An illegal register access (R208). -/
  | illegalAccess
  deriving DecidableEq, Repr

/-- What the outside world does next, one at a time (00_scope.md R5, R6, R18). -/
inductive HostEvent where
  /-- The host reads register `n` (30_encoding.md R85). -/
  | read (n : BitVec 6)
  /-- The host writes register `n` (30_encoding.md R85). -/
  | write (n : BitVec 6) (wdata : Word)
  /-- The host puts a byte into payload storage by its own path, not through the block (30_encoding.md R92, 70_reset_and_hazards.md R235);
  the offset is backed from then on. -/
  | payPut (off : Word) (v : Byte)
  /-- The platform takes the storage behind an offset away between commands (93_implementation_defined.md U4). -/
  | payDrop (off : Word)
  /-- The reset input (70_reset_and_hazards.md R230). -/
  | reset
  deriving DecidableEq, Repr

/-- Payload memory: the bytes behind the backed offsets, offsets rising. An offset is backed (`PayValid`) exactly when it is listed; an unlisted
offset has no value (00_scope.md R10, 93_implementation_defined.md U6; log entry 2). -/
abbrev Mem := List Host.Cell

/-- The state of the machine. -/
structure State where
  /-- Register `BSIZE`, the constant `BLOCK_SIZE` (00_scope.md R7). -/
  bs : Nat
  /-- Register `PWMAX`, the constant `PW_MAX` (00_scope.md R8). -/
  pwMax : Nat
  /-- `HEX_CASE` (00_scope.md R9). -/
  hexCase : HexCase
  /-- The defined bytes of the keystream buffer; `KSLEN` is their number (10_state.md R22). -/
  ks : List Byte
  /-- The defined bytes of the password buffer; `PWLEN` is their number (10_state.md R23). -/
  pw : List Byte
  /-- `STATUS.FAILED` (10_state.md R29). -/
  failed : Bool
  /-- `STATUS.CAUSE` (60_exceptions.md R200). -/
  cause : Cause
  /-- `STATUS.PASS` (10_state.md R30). -/
  pass : Pass
  /-- `STATUS.BLKIDX` (10_state.md R31). -/
  blkidx : BitVec 8
  /-- Register `FADDR` (10_state.md R32). -/
  faddr : Word
  /-- Register `PLEN` (10_state.md R33). -/
  plen : Word
  /-- Register `BCNT`, eight bits (10_state.md R34). -/
  bcnt : BitVec 8
  /-- The CRC accumulator, register `CRC` (10_state.md R24). -/
  crc : Word
  /-- Register `DATA` (10_state.md R37). -/
  data : Word
  /-- Payload memory (20_memory.md R60, R61). -/
  mem : Mem
  /-- Offsets the payload port reads but does not write (20_memory.md R65). -/
  readOnly : List Nat
  /-- Model's own: the events still to come, the next one first (10_state.md R21; log entry 3). -/
  host : List HostEvent
  /-- Model's own: what the host's reads returned, the newest first (30_encoding.md R85; log entry 3). -/
  rdata : List Word
  deriving DecidableEq, Repr

/-- Reasons the MODEL stops with a fault: none. Every fault of the block is a next state, the Failed state (60_exceptions.md R210), and the host's
access completes normally. -/
inductive Fault where
  deriving DecidableEq, Repr

/-- Reasons the model refuses a command. -/
inductive Refusal where
  /-- Raised by no meaning: it would stand in a dispatch arm of a command without a meaning, and every command has one. Safe. -/
  | notModelled (mnemonic : String)
  deriving DecidableEq, Repr

/-- The machine right after reset (70_reset_and_hazards.md R231), with the open parameters of Config (log entry 1), no payload storage listed (log
entry 2) and nothing asked of it yet (log entry 3). -/
def State.reset : State where
  bs := Config.blockSize
  pwMax := Config.pwMax
  hexCase := Config.hexCase
  ks := []
  pw := []
  failed := false
  cause := .noFault
  pass := .idle
  blkidx := 0
  faddr := 0
  plen := 0
  bcnt := 1
  crc := 0xFFFFFFFF
  data := 0
  mem := []
  readOnly := Config.readOnly
  host := []
  rdata := []

end Sys2Proof.Machine
end

