-- ==== Sys2Proof/Machine/Ops.lean ====
section
/-! DEFINITION. The named operations of the machine: register updates, fault entry (60_exceptions.md R210), payload memory (20_memory.md R63 to
R69), the ignoring of commands in the Failed state (R212), and reset (70_reset_and_hazards.md R230). -/

namespace Sys2Proof.Machine

/-! Register and buffer updates. Each writes its own field and nothing else. -/

/-- Write the keystream buffer; `KSLEN` becomes the number of bytes (10_state.md R22). -/
def State.setKs (s : State) (v : List Byte) : State := { s with ks := v }

/-- Write the password buffer; `PWLEN` becomes the number of bytes (10_state.md R23). -/
def State.setPw (s : State) (v : List Byte) : State := { s with pw := v }

/-- Write `STATUS.PASS` (10_state.md R30). -/
def State.setPass (s : State) (v : Pass) : State := { s with pass := v }

/-- Write `STATUS.BLKIDX` (10_state.md R31). -/
def State.setBlkidx (s : State) (v : BitVec 8) : State := { s with blkidx := v }

/-- Write register `PLEN` (10_state.md R33). -/
def State.setPlen (s : State) (v : Word) : State := { s with plen := v }

/-- Write the eight bits of register `BCNT` (10_state.md R34). -/
def State.setBcnt (s : State) (v : BitVec 8) : State := { s with bcnt := v }

/-- Write the CRC accumulator (10_state.md R24). -/
def State.setCrc (s : State) (v : Word) : State := { s with crc := v }

/-- Write register `DATA` (10_state.md R37). -/
def State.setData (s : State) (v : Word) : State := { s with data := v }

/-- Replace payload memory (20_memory.md R60). -/
def State.setMem (s : State) (v : Mem) : State := { s with mem := v }

/-- The events still to come (log entry 3). -/
def State.setHost (s : State) (v : List HostEvent) : State := { s with host := v }

/-- The host receives a word from a register read (30_encoding.md R85, `rdata`). -/
def State.answer (s : State) (v : Word) : State := { s with rdata := v :: s.rdata }

/-! Fault entry and the Failed state. -/

/-- Whether the cause records a payload offset in `FADDR` (60_exceptions.md R200, R210; 10_state.md R32). -/
def Cause.recordsOffset : Cause → Bool
  | .invalidStreamRead => true
  | .invalidStreamWrite => true
  | .noFault => false
  | .illegalCommand => false
  | .sizeUnderflow => false
  | .keystreamLength => false
  | .bufferOverflow => false
  | .indexRange => false
  | .illegalAccess => false

/-- `raise X(info)`: fault entry (60_exceptions.md R210). It writes the fault record and nothing else; while `FAILED = 1` it does nothing, so the
first fault is kept (R211). -/
def State.raise (s : State) (c : Cause) (info : Word) : State :=
  if s.failed then s
  else { s with failed := true, cause := c, faddr := if c.recordsOffset then info else 0 }

/-- A command other than `CLEAR`: ignored while `FAILED = 1` (60_exceptions.md R212, 30_encoding.md R91), else its rule's effect. The host's write
to `CMD` completes in every case (R210), so the machine goes on to a next state. -/
def command (effect : State → State) (s : State) : Host.Outcome State Fault Refusal :=
  .next (if s.failed then s else effect s)

/-! Payload memory as a partial map. -/

/-- The byte behind an offset, if the offset is backed (20_memory.md R63). -/
def Mem.byteAt : Mem → Nat → Option Byte
  | [], _ => none
  | (a, b) :: m, off => if a = off then some b else Mem.byteAt m off

/-- The byte behind a backed offset becomes `v`; which offsets are backed does not change (20_memory.md R64, R65). -/
def Mem.write : Mem → Nat → Byte → Mem
  | [], _, _ => []
  | (a, b) :: m, off, v => if a = off then (a, v) :: m else (a, b) :: Mem.write m off v

/-- The offset is backed from now on and holds `v`: the host's own path to storage (30_encoding.md R92). -/
def Mem.put : Mem → Nat → Byte → Mem
  | [], off, v => [(off, v)]
  | (a, b) :: m, off, v =>
    if off < a then (off, v) :: (a, b) :: m
    else if a = off then (a, v) :: m
    else (a, b) :: Mem.put m off v

/-- The offset is backed no longer (93_implementation_defined.md U4). -/
def Mem.drop (m : Mem) (off : Nat) : Mem := m.filter fun cell => cell.1 != off

/-- The canonical form of payload memory: offsets strictly rising, all of them below `2^32` (20_memory.md R60). -/
abbrev Mem.wf (m : Mem) : Prop :=
  m.Pairwise (fun a b => a.1 < b.1) ∧ ∀ cell ∈ m, cell.1 < 2 ^ 32

/-- The payload port can read the offset: `PayValid` for a `MemRead` (20_memory.md R63). -/
def State.readable (s : State) (off : Nat) : Bool := (s.mem.byteAt off).isSome

/-- The payload port can write the offset: `PayValid` for a `MemWrite`, on a platform that may have offsets it only reads (20_memory.md R64, R65). -/
def State.writable (s : State) (off : Nat) : Bool := s.readable off && !s.readOnly.contains off

/-! Engine accesses. `.ok` goes on; `.error` holds the state in which a `raise` stopped the command (00_scope.md R15). -/

/-- `MemRead(off, 1)` (20_memory.md R63). -/
def State.memRead (s : State) (off : Nat) : Except State Byte :=
  match s.mem.byteAt off with
  | some b => .ok b
  | none => .error (s.raise .invalidStreamRead (BitVec.ofNat 32 off))

/-- `MemWrite(off, 1, v)` (20_memory.md R64). -/
def State.memWrite (s : State) (off : Nat) (v : Byte) : Except State State :=
  if s.writable off then .ok (s.setMem (s.mem.write off v))
  else .error (s.raise .invalidStreamWrite (BitVec.ofNat 32 off))

/-- `n` byte reads at `off, off+1, ...` in ascending order (20_memory.md R68): the block as read, or the state of the first fault. -/
def State.readBytes (s : State) : (off n : Nat) → Except State (List Byte)
  | _, 0 => .ok []
  | off, n + 1 =>
    match s.memRead off with
    | .error stopped => .error stopped
    | .ok b =>
      match s.readBytes (off + 1) n with
      | .error stopped => .error stopped
      | .ok bytes => .ok (b :: bytes)

/-- Byte writes at `off, off+1, ...` in ascending order (20_memory.md R68): the state after the last, or the state of the first fault with the
earlier bytes written (41_blockchain.md R139). -/
def State.writeBytes : State → (off : Nat) → List Byte → Except State State
  | s, _, [] => .ok s
  | s, off, b :: bytes =>
    match s.memWrite off b with
    | .error stopped => .error stopped
    | .ok s' => s'.writeBytes (off + 1) bytes

/-- `flush()`: the identity, since payload memory is a plain map (20_memory.md R69). -/
def State.flush (s : State) : State := s

/-! Reset. -/

/-- The reset input (70_reset_and_hazards.md R230, R231): every register takes its reset value; the build-time parameters stay, and payload memory
and the model's record of the host are no registers of the block. -/
def State.resetRegisters (s : State) : State :=
  { State.reset with
    bs := s.bs, pwMax := s.pwMax, hexCase := s.hexCase
    mem := s.mem, readOnly := s.readOnly, host := s.host, rdata := s.rdata }

end Sys2Proof.Machine
end

