-- ==== Sys2Proof/Machine/Operands.lean ====
section
/-! DEFINITION. The implicit operands of the commands: the block windows (41_blockchain.md R131, R146), the size check (R134), the traversal of both
windows (R140, R141, 42_checksum.md R153), and the value a write of `BCNT` stores (10_state.md R34). -/

namespace Sys2Proof.Machine

/-- `max(1, v[7:0])`, what a host write of `v` stores in `BCNT` (10_state.md R34). -/
def clampBcnt (v : Word) : BitVec 8 :=
  if v.extractLsb' 0 8 = 0 then 1 else v.extractLsb' 0 8

/-- Offset of top block `index` (41_blockchain.md R131). -/
def topOffset (bs index : Nat) : Nat := bs * index

/-- Offset of bottom block `index` (41_blockchain.md R131). -/
def bottomOffset (bs plen index : Nat) : Nat := plen - bs * (index + 1)

/-- The size check fails: `BS * BCNT > PLEN` on naturals (41_blockchain.md R134). -/
def State.windowTooLarge (s : State) : Bool := decide (s.bs * s.bcnt.toNat > s.plen.toNat)

/-- One pass over `n` blocks from `index` on, ascending: `BLKIDX` names the block, then the block is processed; a fault stops the pass
(41_blockchain.md R140). -/
def runPass (block : Nat → State → Except State State) (offset : Nat → Nat) :
    (index n : Nat) → State → Except State State
  | _, 0, s => .ok s
  | index, n + 1, s =>
    match block (offset index) (s.setBlkidx (BitVec.ofNat 8 index)) with
    | .error stopped => .error stopped
    | .ok s' => runPass block offset (index + 1) n s'

/-- The traversal of both windows, top then bottom, with `PASS` kept along (41_blockchain.md R140, R141; 42_checksum.md R153). -/
def traverseWindows (block : Nat → State → Except State State) (s : State) : State :=
  match runPass block (topOffset s.bs) 0 s.bcnt.toNat (s.setPass .top) with
  | .error stopped => stopped
  | .ok s₁ =>
    match runPass block (bottomOffset s.bs s.plen.toNat) 0 s.bcnt.toNat (s₁.setPass .bottom) with
    | .error stopped => stopped
    | .ok s₂ => s₂.setPass .done

end Sys2Proof.Machine
end

