-- ==== Sys2Proof/Machine/Checksum.lean ====
section
/-! DEFINITION. The CRC32 accumulator (42_checksum.md): the fold, the commands `CRCINIT`, `CRCB`, `CRCSCAN`, and the digest views. -/

namespace Sys2Proof.Machine

/-- The polynomial (00_scope.md R11, 42_checksum.md R150). -/
def crcPoly : Word := 0xEDB88320

/-- The seed, all ones (10_state.md R24). -/
def crcSeed : Word := 0xFFFFFFFF

/-- One turn of the fold's inner loop (42_checksum.md R150). -/
def crcShift (c : Word) : Word :=
  if c.getLsbD 0 then (c >>> 1) ^^^ crcPoly else c >>> 1

/-- `crc_fold(c, b)`: `b` enters the low byte, then eight turns (42_checksum.md R150; log entry 5). -/
def crcFold (c : Word) (b : Byte) : Word :=
  Nat.repeat crcShift 8 (c ^^^ b.setWidth 32)

/-- The fold of a byte string, first byte first (42_checksum.md R152, R153). -/
def crcFoldBytes (c : Word) (bytes : List Byte) : Word := bytes.foldl crcFold c

/-- `scan_block(off)`: the block is folded only after it has been read whole (42_checksum.md R153). -/
def scanBlock (off : Nat) (s : State) : Except State State :=
  match s.readBytes off s.bs with
  | .error stopped => .error stopped
  | .ok scr => .ok (s.setCrc (crcFoldBytes s.crc scr))

/-- `CRCINIT` (42_checksum.md R151). -/
def execCrcinit (s : State) : Host.Outcome State Fault Refusal :=
  command (fun s => s.setCrc crcSeed) s

/-- `CRCB imm8` (42_checksum.md R152). -/
def execCrcb (imm8 : Byte) (s : State) : Host.Outcome State Fault Refusal :=
  command (fun s => s.setCrc (crcFold s.crc imm8)) s

/-- `CRCSCAN` (42_checksum.md R153). -/
def execCrcscan (s : State) : Host.Outcome State Fault Refusal :=
  command (fun s => if s.windowTooLarge then s.raise .sizeUnderflow 0 else traverseWindows scanBlock s) s

/-- `DIGEST`, a view: `not32(R.CRC)` (10_state.md R35, 42_checksum.md R155). -/
def State.digest (s : State) : Word := ~~~s.crc

/-- `hexdigit(n)`: the ASCII code of a hex digit (42_checksum.md R156). -/
def hexDigit (hexCase : HexCase) (n : BitVec 4) : Byte :=
  if n.toNat ≤ 9 then 0x30 + n.setWidth 8
  else match hexCase with
    | .upper => 0x41 + (n.setWidth 8 - 10)
    | .lower => 0x61 + (n.setWidth 8 - 10)

/-- The character `h[k]` of the digest, `h[0]` the most significant digit (42_checksum.md R156). -/
def State.hexChar (s : State) (k : Nat) : Byte :=
  hexDigit s.hexCase (s.digest.extractLsb' (28 - 4 * k) 4)

/-- `DIGHEX0`: characters 0 to 3, the lowest index in the lowest lane (10_state.md R36). -/
def State.dighex0 (s : State) : Word := s.hexChar 3 ++ s.hexChar 2 ++ s.hexChar 1 ++ s.hexChar 0

/-- `DIGHEX1`: characters 4 to 7, the lowest index in the lowest lane (10_state.md R36). -/
def State.dighex1 (s : State) : Word := s.hexChar 7 ++ s.hexChar 6 ++ s.hexChar 5 ++ s.hexChar 4

end Sys2Proof.Machine
end

