-- ==== Sys2Proof/Machine/BlockChain.lean ====
section
/-! DEFINITION. The block-chained XOR engine (41_blockchain.md): one block in each direction, and the commands `ENC` and `DEC`. -/

namespace Sys2Proof.Machine

/-- Byte `i` of one string xor byte `i` of the other (41_blockchain.md R136, R144). -/
def xorBytes (a k : List Byte) : List Byte := List.zipWith (· ^^^ ·) a k

/-- The end of a block: chain update with the block's ciphertext, then, when `c = 1`, the fold of the same bytes (41_blockchain.md R136 to R138,
R142). -/
def chain (c : Bool) (ciphertext : List Byte) (s : State) : State :=
  if c then (s.setKs ciphertext).setCrc (crcFoldBytes s.crc ciphertext) else s.setKs ciphertext

/-- `enc_block(off, c)` (41_blockchain.md R136). The scratch buffer is the local `scr` (10_state.md R25). -/
def encBlock (c : Bool) (off : Nat) (s : State) : Except State State :=
  match s.readBytes off s.bs with
  | .error stopped => .error stopped
  | .ok plaintext =>
    let scr := xorBytes plaintext s.ks
    match s.writeBytes off scr with
    | .error stopped => .error stopped
    | .ok s' => .ok (chain c scr s'.flush)

/-- `dec_block(off, c)` (41_blockchain.md R137): the captured ciphertext stays in `scr` until the chain update. -/
def decBlock (c : Bool) (off : Nat) (s : State) : Except State State :=
  match s.readBytes off s.bs with
  | .error stopped => .error stopped
  | .ok scr =>
    match s.writeBytes off (xorBytes scr s.ks) with
    | .error stopped => .error stopped
    | .ok s' => .ok (chain c scr s'.flush)

/-- The preconditions of a transform in their order, then the traversal (41_blockchain.md R133 to R135, R140, R141). -/
def transform (block : Nat → State → Except State State) (s : State) : State :=
  if s.windowTooLarge then s.raise .sizeUnderflow 0
  else if s.ks.length ≠ s.bs then s.raise .keystreamLength 0
  else traverseWindows block s

/-- `ENC` and `ENC.C` (41_blockchain.md R140). -/
def execEnc (c : Bool) (s : State) : Host.Outcome State Fault Refusal :=
  command (transform (encBlock c)) s

/-- `DEC` and `DEC.C` (41_blockchain.md R141). -/
def execDec (c : Bool) (s : State) : Host.Outcome State Fault Refusal :=
  command (transform (decBlock c)) s

end Sys2Proof.Machine
end

