-- ==== Sys2Proof/Machine/Control.lean ====
section
/-! DEFINITION. The control command `CLEAR` (43_control.md R170), the return from the Failed state (60_exceptions.md R213). -/

namespace Sys2Proof.Machine

/-- `CLEAR` (43_control.md R170): the only command executed while `FAILED = 1`. `PLEN`, `BCNT` and payload memory keep their values. -/
def execClear (s : State) : Host.Outcome State Fault Refusal :=
  .next { s with
    ks := [], pw := [], crc := 0xFFFFFFFF, data := 0, faddr := 0
    failed := false, cause := .noFault, pass := .idle, blkidx := 0 }

end Sys2Proof.Machine
end

