-- ==== Sys2Proof/Machine/Keystream.lean ====
section
/-! DEFINITION. The password buffer and the keystream generator (40_password_keystream.md): `PWCLR`, `PWPUSH`, `KSGEN`, `KSCLR`, `KSPUSH`, `KSRD`. -/

namespace Sys2Proof.Machine

/-- The ramp `i mod 256` for `i` in `0 .. bs - 1` (40_password_keystream.md R113). -/
def ramp (bs : Nat) : List Byte := (List.range bs).map fun i => BitVec.ofNat 8 i

/-- The loop of `obfuscate()` (40_password_keystream.md R116): `i` the buffer index, `k` the index of the next password byte, `skipped` the positions
skipped since the last extra shift. `i` grows by at least 2 a turn (41_blockchain.md R145), so `bs` turns are enough. -/
def obfuscateLoop (bs : Nat) (pw : List Byte) : (turns i k skipped : Nat) → List Byte → List Byte
  | 0, _, _, _, ks => ks
  | turns + 1, i, k, skipped, ks =>
    if i < bs then
      let ks := ks.modify i fun b => b + pw.getD k 0
      let k := (k + 1) % pw.length
      if skipped + 1 = pw.length then obfuscateLoop bs pw turns (i + 2 + 1) k 0 ks
      else obfuscateLoop bs pw turns (i + 2) k (skipped + 1) ks
    else ks

/-- The obfuscation pass over the ramp, for a non-empty password: the one replaceable function of `(BLOCK_SIZE, password)` of 00_scope.md R12, with
the reading of 40_password_keystream.md R116 (log entry 6). -/
def obfuscate (bs : Nat) (pw : List Byte) : List Byte := obfuscateLoop bs pw bs 0 0 0 (ramp bs)

/-- `generate(blockSize, password)` (40_password_keystream.md R112, R114, R115). -/
def generate (bs : Nat) (pw : List Byte) : List Byte :=
  if pw.length > 0 then obfuscate bs pw else ramp bs

/-- `PWCLR` (40_password_keystream.md R110). -/
def execPwclr (s : State) : Host.Outcome State Fault Refusal :=
  command (fun s => s.setPw []) s

/-- `PWPUSH imm8` (40_password_keystream.md R111). -/
def execPwpush (imm8 : Byte) (s : State) : Host.Outcome State Fault Refusal :=
  command (fun s => if s.pw.length = s.pwMax then s.raise .bufferOverflow 0 else s.setPw (s.pw ++ [imm8])) s

/-- `KSGEN` (40_password_keystream.md R114). -/
def execKsgen (s : State) : Host.Outcome State Fault Refusal :=
  command (fun s => s.setKs (generate s.bs s.pw)) s

/-- `KSCLR` (40_password_keystream.md R119). -/
def execKsclr (s : State) : Host.Outcome State Fault Refusal :=
  command (fun s => s.setKs []) s

/-- `KSPUSH imm8` (40_password_keystream.md R120). -/
def execKspush (imm8 : Byte) (s : State) : Host.Outcome State Fault Refusal :=
  command (fun s => if s.ks.length = s.bs then s.raise .bufferOverflow 0 else s.setKs (s.ks ++ [imm8])) s

/-- `KSRD idx24` (40_password_keystream.md R121): `IndexRange` at or beyond `KSLEN`, else the byte, zero-extended, in `DATA`. -/
def execKsrd (idx24 : Nat) (s : State) : Host.Outcome State Fault Refusal :=
  command (fun s =>
    match s.ks[idx24]? with
    | none => s.raise .indexRange 0
    | some b => s.setData (b.setWidth 32)) s

end Sys2Proof.Machine
end

