-- ==== Sys2Proof/Machine/Dispatch.lean ====
section
/-! DEFINITION. The dispatch of a command to its meaning (30_encoding.md R91), one arm per constructor. -/

namespace Sys2Proof.Machine

def exec (i : Instr) (s : State) : Host.Outcome State Fault Refusal :=
  match i with
  | .clear => Sys2Proof.Machine.execClear s
  | .pwclr => Sys2Proof.Machine.execPwclr s
  | .pwpush imm8 => Sys2Proof.Machine.execPwpush imm8 s
  | .ksgen => Sys2Proof.Machine.execKsgen s
  | .ksclr => Sys2Proof.Machine.execKsclr s
  | .kspush imm8 => Sys2Proof.Machine.execKspush imm8 s
  | .ksrd idx24 => Sys2Proof.Machine.execKsrd idx24 s
  | .enc c => Sys2Proof.Machine.execEnc c s
  | .dec c => Sys2Proof.Machine.execDec c s
  | .crcinit => Sys2Proof.Machine.execCrcinit s
  | .crcb imm8 => Sys2Proof.Machine.execCrcb imm8 s
  | .crcscan => Sys2Proof.Machine.execCrcscan s

end Sys2Proof.Machine
end

