-- ==== Sys2Proof/Machine/Flags.lean ====
section
/-! DEFINITION. The flags and codes of `STATUS` (10_state.md R28 to R31, 60_exceptions.md R200). The block has no arithmetic flags (R29). -/

namespace Sys2Proof.Machine

/-- The two bits of `PASS` (10_state.md R30). -/
def Pass.code : Pass → BitVec 2
  | .idle => 0
  | .top => 1
  | .bottom => 2
  | .done => 3

/-- The four bits of `CAUSE` (60_exceptions.md R200). -/
def Cause.code : Cause → BitVec 4
  | .noFault => 0
  | .illegalCommand => 1
  | .sizeUnderflow => 2
  | .keystreamLength => 3
  | .invalidStreamRead => 4
  | .invalidStreamWrite => 5
  | .bufferOverflow => 6
  | .indexRange => 7
  | .illegalAccess => 8

/-- `KSRDY`: the keystream is ready, `KSLEN = BS`; a view (10_state.md R28, R29). -/
def State.ksrdy (s : State) : Bool := decide (s.ks.length = s.bs)

/-- The `STATUS` register as a word: bits 31:16 zero, `BLKIDX` 15:8, `CAUSE` 7:4, `PASS` 3:2, `KSRDY` 1, `FAILED` 0 (10_state.md R28). -/
def State.status (s : State) : Word :=
  0#16 ++ s.blkidx ++ s.cause.code ++ s.pass.code ++ BitVec.ofBool s.ksrdy ++ BitVec.ofBool s.failed

end Sys2Proof.Machine
end

