-- ==== Sys2Proof/Machine/HostPort.lean ====
section
/-! DEFINITION. The register port (10_state.md R26, R27; 30_encoding.md R85, R91) and the events of the outside world (00_scope.md R5, R6). -/

namespace Sys2Proof.Machine

/-- The value of register `n`; `none` where the host may not read: `CMD` (13) and the undefined numbers 14 to 63 (10_state.md R26). -/
def State.register (s : State) (n : BitVec 6) : Option Word :=
  match n.toNat with
  | 0 => some (BitVec.ofNat 32 s.bs)
  | 1 => some (BitVec.ofNat 32 s.pwMax)
  | 2 => some s.status
  | 3 => some s.faddr
  | 4 => some s.plen
  | 5 => some (s.bcnt.setWidth 32)
  | 6 => some (BitVec.ofNat 32 s.ks.length)
  | 7 => some (BitVec.ofNat 32 s.pw.length)
  | 8 => some s.crc
  | 9 => some s.digest
  | 10 => some s.dighex0
  | 11 => some s.dighex1
  | 12 => some s.data
  | _ => none

/-- `access(read, n)` (30_encoding.md R85). -/
def accessRead (n : BitVec 6) (s : State) : State :=
  match s.register n with
  | some v => s.answer v
  | none => (s.raise .illegalAccess 0).answer 0

/-- The word of `CLEAR`, the only one that acts while `FAILED = 1` (30_encoding.md R91). -/
def clearWord : Word := 0x01000000

/-- `execute(w)` (30_encoding.md R91). -/
def execute (w : Word) (s : State) : Host.Outcome State Fault Refusal :=
  if s.failed ∧ w ≠ clearWord then .next s
  else match decode w with
    | .error _ => .next (s.raise .illegalCommand 0)
    | .ok i => exec i s

/-- `access(write, n, wdata)` (30_encoding.md R85). -/
def accessWrite (n : BitVec 6) (wdata : Word) (s : State) : Host.Outcome State Fault Refusal :=
  match n.toNat with
  | 4 => .next (s.setPlen wdata)
  | 5 => .next (s.setBcnt (clampBcnt wdata))
  | 13 => execute wdata s
  | _ => .next (s.raise .illegalAccess 0)

/-- One event of the outside world: a host access, the host's own path to payload storage, a change of the platform's backing, or reset. -/
def hostEvent (e : HostEvent) (s : State) : Host.Outcome State Fault Refusal :=
  match e with
  | .read n => .next (accessRead n s)
  | .write n wdata => accessWrite n wdata s
  | .payPut off v => .next (s.setMem (s.mem.put off.toNat v))
  | .payDrop off => .next (s.setMem (s.mem.drop off.toNat))
  | .reset => .next s.resetRegisters

/-- The next event, with the state it meets; between events the state does not change (00_scope.md R6), so with none to come the machine idles
(log entry 3). -/
def nextEvent (s : State) : Host.Outcome State Fault Refusal :=
  match s.host with
  | [] => .next s
  | e :: rest => hostEvent e (s.setHost rest)

/-- The host's next access is a write of this command word to `CMD`. -/
def State.queueCommand (s : State) (w : Word) : State := s.setHost (.write 13 w :: s.host)

end Sys2Proof.Machine
end

