-- ==== Sys2Proof/Machine/Step.lean ====
section
/-! DEFINITION. One step of the machine: one host access, or one other event of the outside world (00_scope.md R6). -/

namespace Sys2Proof.Machine

/-- One step (00_scope.md R6). -/
def step (s : State) : Host.Outcome State Fault Refusal := nextEvent s

/-- The state in which the very next step runs the command word `w`: the block fetches nothing (10_state.md R21), a command comes as the host's write
to `CMD`, so that write is queued first. Every command is one 32-bit word (30_encoding.md R86), so the table's bit count plays no part. -/
def State.withFetchWord (s : State) (_nbits w : Nat) : State := s.queueCommand (BitVec.ofNat 32 w)

end Sys2Proof.Machine
end

