-- ==== Sys2Proof/Safety.lean ====
section
/-! DEFINITION. The terms the claims use: the invariant of the state (10_state.md R38), the blocks of a traversal by number (00_scope.md R18,
41_blockchain.md R131), and the bytes of the windows in traversal order. -/

namespace Sys2Proof.Machine

/-- The invariant of 10_state.md R38 with the parameter ranges of 00_scope.md R7 and R8, and the canonical form of payload memory. `KSRDY` and `DIGEST`
are views, so what R38 says of them holds by their definitions. -/
structure State.Inv (s : State) : Prop where
  bs_pos : 1 ≤ s.bs
  bs_le : s.bs ≤ 2 ^ 24
  pwMax_pos : 1 ≤ s.pwMax
  pwMax_lt : s.pwMax < 2 ^ 32
  ks_le : s.ks.length ≤ s.bs
  pw_le : s.pw.length ≤ s.pwMax
  bcnt_ne_zero : s.bcnt ≠ 0
  blkidx_le : s.blkidx.toNat ≤ 254
  cause_iff : s.cause = .noFault ↔ s.failed = false
  faddr_zero : s.cause ≠ .invalidStreamRead → s.cause ≠ .invalidStreamWrite → s.faddr = 0
  data_lt : s.data.toNat < 256
  mem_wf : s.mem.wf

/-- The number of blocks a traversal processes: `BCNT` in each of two windows (41_blockchain.md R131). -/
def State.blocks (s : State) : Nat := 2 * s.bcnt.toNat

/-- The offset of block `j` in traversal order, `0 ≤ j < 2 * BCNT`: top blocks `0, 1, ...`, then bottom blocks `0, 1, ...` (00_scope.md R18,
41_blockchain.md R131). -/
def State.blockOffset (s : State) (j : Nat) : Nat :=
  if j < s.bcnt.toNat then topOffset s.bs j else bottomOffset s.bs s.plen.toNat (j - s.bcnt.toNat)

/-- The offset lies in block `j` of the traversal. -/
def State.InBlock (s : State) (j a : Nat) : Prop := s.blockOffset j ≤ a ∧ a < s.blockOffset j + s.bs

/-- The offset lies in one of the two windows. -/
def State.InWindows (s : State) (a : Nat) : Prop := ∃ j, j < s.blocks ∧ s.InBlock j a

/-- The size check passes (41_blockchain.md R134). -/
abbrev State.Fits (s : State) : Prop := s.bs * s.bcnt.toNat ≤ s.plen.toNat

/-- The windows do not overlap (41_blockchain.md R142, R143). -/
abbrev State.Disjoint (s : State) : Prop := 2 * s.bs * s.bcnt.toNat ≤ s.plen.toNat

/-- Every offset of both windows can be read by the engine. -/
def State.WindowsReadable (s : State) : Prop := ∀ a, s.InWindows a → s.readable a = true

/-- Every offset of both windows can be read and written by the engine. -/
def State.WindowsWritable (s : State) : Prop := ∀ a, s.InWindows a → s.writable a = true

/-- The bytes of a memory at `off, off+1, ..., off+n-1`, as far as they are backed. -/
def Mem.bytesAt (m : Mem) (off n : Nat) : List Byte := (List.range n).filterMap fun i => m.byteAt (off + i)

/-- The bytes a memory holds in the first `count` blocks of the traversal, in traversal order (42_checksum.md R153). -/
def State.blockBytes (s : State) (m : Mem) (count : Nat) : List Byte :=
  (List.range count).flatMap fun j => m.bytesAt (s.blockOffset j) s.bs

/-- What the first `n` blocks of `ENC` (`enc`) or `DEC` leave, windows overlapping or not: memory `m`, keystream `ks`, CRC `crc`. Each block reads what
the block before it left (41_blockchain.md R132): byte by byte it writes its old byte xor the keystream, its ciphertext (for `ENC` the bytes written, for
`DEC` the bytes read) is the next keystream and, when `c = 1`, is folded into the CRC, and no other byte changes (R136 to R138). -/
inductive State.Chained (s : State) (enc c : Bool) : (n : Nat) → (m : Mem) → (ks : List Byte) → (crc : Word) → Prop
  | zero : s.Chained enc c 0 s.mem s.ks s.crc
  | succ {n : Nat} {m m' : Mem} {ks ks' : List Byte} {crc : Word} (before : s.Chained enc c n m ks crc)
      (length : ks'.length = s.bs)
      (byte : ∀ i < s.bs, ∃ p k, m.byteAt (s.blockOffset n + i) = some p ∧ ks[i]? = some k ∧
        m'.byteAt (s.blockOffset n + i) = some (p ^^^ k) ∧ ks'[i]? = some (if enc then p ^^^ k else p))
      (outside : ∀ a, ¬s.InBlock n a → m'.byteAt a = m.byteAt a) :
      s.Chained enc c (n + 1) m' ks' (if c then crcFoldBytes crc ks' else crc)

/-- The first `n` blocks of `ENC`, when the windows do not overlap, in closed form (41_blockchain.md R136, R138, R142): byte by byte each block is its old
byte xor the ciphertext of the block before it (the first keystream for block 0), the keystream is the last of these ciphertexts, and the CRC, coupled,
has folded them all in traversal order. -/
structure State.Encoded (s : State) (c : Bool) (n : Nat) (m : Mem) (ks : List Byte) (crc : Word) : Prop where
  byte : ∀ j < n, ∀ i < s.bs, ∃ p k, s.mem.byteAt (s.blockOffset j + i) = some p ∧
    (if j = 0 then s.ks[i]? else m.byteAt (s.blockOffset (j - 1) + i)) = some k ∧
    m.byteAt (s.blockOffset j + i) = some (p ^^^ k)
  ks : ks = if n = 0 then s.ks else m.bytesAt (s.blockOffset (n - 1)) s.bs
  crc : crc = if c then crcFoldBytes s.crc (s.blockBytes m n) else s.crc

/-- The first `n` blocks of `DEC`, likewise (41_blockchain.md R137, R138, R142): the ciphertext is what memory held at the start. -/
structure State.Decoded (s : State) (c : Bool) (n : Nat) (m : Mem) (ks : List Byte) (crc : Word) : Prop where
  byte : ∀ j < n, ∀ i < s.bs, ∃ x k, s.mem.byteAt (s.blockOffset j + i) = some x ∧
    (if j = 0 then s.ks[i]? else s.mem.byteAt (s.blockOffset (j - 1) + i)) = some k ∧
    m.byteAt (s.blockOffset j + i) = some (x ^^^ k)
  ks : ks = if n = 0 then s.ks else s.mem.bytesAt (s.blockOffset (n - 1)) s.bs
  crc : crc = if c then crcFoldBytes s.crc (s.blockBytes s.mem n) else s.crc

/-- The fault record is written and nothing else (60_exceptions.md R210). -/
def State.faulted (s : State) (c : Cause) (info : Word) : State := { s with failed := true, cause := c, faddr := info }

end Sys2Proof.Machine
end

