-- ==== Sys2Proof/Certificates/Slice0/Obligations.lean ====
section
/-! DEFINITION. The statements for the provers, from the numbered rules of the spec. A statement about a next state writes every field it changes, so it
says its own frame. -/

open Sys2Proof Sys2Proof.Machine

/-! Encoding (30_encoding.md). -/

/-- R86 to R89: the decoder gives back every well-formed command from its word, whatever its operand. -/
def Obligations.DecodeOfEncode : Prop :=
  ∀ i : Instr, WellFormed i = true → decode (encode i) = .ok i

/-- R89, R91: each word has at most one meaning, and the command decoded has that word. -/
def Obligations.EncodeOfDecode : Prop :=
  ∀ (w : Word) (i : Instr), decode w = .ok i → WellFormed i = true ∧ encode i = w

/-- R89, R90: the decoder accepts exactly the words that some row of the opcode map covers, and gives that row's command. -/
def Obligations.DecodeIsTheOpcodeMap : Prop :=
  ∀ w : Word,
    (∀ i, decode w = .ok i → rowOf i ∈ opcodeMap ∧ (rowOf i).covers w = true) ∧
    (∀ r ∈ opcodeMap, r.covers w = true → ∃ i, decode w = .ok i ∧ rowOf i = r)

/-- R91: at most one row covers a word. -/
def Obligations.OpcodeRowsNeverOverlap : Prop :=
  ∀ (w : Word) (r₁ r₂ : OpcodeRow), r₁ ∈ opcodeMap → r₂ ∈ opcodeMap →
    r₁.covers w = true → r₂.covers w = true → r₁ = r₂

/-- A few words of 95_test_vectors.md 5.3, 7 and K30, one or more of every format, and illegal ones. -/
def Obligations.SampleWordsDecode : Prop :=
  decode 0x01000000 = .ok .clear ∧ decode 0x11000061 = .ok (.pwpush 0x61) ∧ decode 0x20000000 = .ok .ksgen ∧
  decode 0x220000AA = .ok (.kspush 0xAA) ∧ decode 0x23FFFFFF = .ok (.ksrd 0xFFFFFF) ∧
  decode 0x30000000 = .ok (.enc false) ∧ decode 0x30000001 = .ok (.enc true) ∧ decode 0x31000001 = .ok (.dec true) ∧
  decode 0x41000031 = .ok (.crcb 0x31) ∧ decode 0x42000000 = .ok .crcscan ∧
  decode 0x00000000 = .error .unknownOpcode ∧ decode 0xFF000000 = .error .unknownOpcode ∧
  decode 0x20000001 = .error .mbzSet ∧ decode 0x11000100 = .error .mbzSet ∧ decode 0x30000002 = .error .mbzSet ∧
  decode 0x30800000 = .error .mbzSet

/-! One step: one host access (00_scope.md R6, 30_encoding.md R85, R91). -/

/-- A write of a command's word to `CMD` runs that command; the step takes the access off the host's list (log entry 3) and does nothing else around
`exec`. -/
def Obligations.StepRunsDecodedCommand : Prop :=
  ∀ (s : State) (rest : List HostEvent) (w : Word) (i : Instr),
    s.host = .write 13 w :: rest → decode w = .ok i → step s = exec i { s with host := rest }

/-- What `withFetchWord` places, the very next step runs (log entry 3). -/
def Obligations.PlacedWordRunsNext : Prop :=
  ∀ (s : State) (nbits w : Nat) (i : Instr),
    decodeTableWord nbits w = some i → step (s.withFetchWord nbits w) = exec i s

/-- R6: between host accesses the state does not change; with no access to come the model idles (the model's choice, log entry 3). -/
def Obligations.NoAccessNoChange : Prop :=
  ∀ s : State, s.host = [] → step s = .next s

/-- R90, R201: outside the Failed state a word that is no command raises `IllegalCommand`, and only the fault record changes. -/
def Obligations.IllegalWordRaisesIllegalCommand : Prop :=
  ∀ (s : State) (rest : List HostEvent) (w : Word) (e : DecodeReject),
    s.host = .write 13 w :: rest → s.failed = false → decode w = .error e →
    step s = .next (({ s with host := rest } : State).faulted .illegalCommand 0)

/-- R212: the Failed state. Every word but `CLEAR`'s is ignored, illegal accesses are inert (a read returns 0), the defined readable registers read as
ever, writes of `PLEN` and `BCNT` take effect. -/
def Obligations.FailedStateIgnoresAllButClear : Prop :=
  ∀ (s : State) (rest : List HostEvent), s.failed = true →
    (∀ w : Word, s.host = .write 13 w :: rest → w ≠ 0x01000000 → step s = .next { s with host := rest }) ∧
    (∀ n : BitVec 6, s.host = .read n :: rest → 13 ≤ n.toNat →
      step s = .next { s with host := rest, rdata := 0 :: s.rdata }) ∧
    (∀ (n : BitVec 6) (v : Word), s.host = .write n v :: rest → n ≠ 4 → n ≠ 5 → n ≠ 13 →
      step s = .next { s with host := rest }) ∧
    (∀ (n : BitVec 6), s.host = .read n :: rest → n.toNat < 13 →
      ∃ v, s.register n = some v ∧ step s = .next { s with host := rest, rdata := v :: s.rdata }) ∧
    (∀ v : Word, s.host = .write 4 v :: rest → step s = .next { s with host := rest, plen := v }) ∧
    (∀ v : Word, s.host = .write 5 v :: rest →
      ∃ b : BitVec 8, b.toNat = max 1 (v.toNat % 256) ∧ step s = .next { s with host := rest, bcnt := b })

/-- R213, R211: a step from the Failed state whose access is `CLEAR` or reset leaves it and discards the keystream, the password and the CRC state;
every other step keeps the fault record. -/
def Obligations.FailedLeftOnlyByClearOrReset : Prop :=
  ∀ s t : State, s.failed = true → step s = .next t →
    ((∃ rest, s.host = .write 13 0x01000000 :: rest ∨ s.host = .reset :: rest) →
      t.failed = false ∧ t.ks = [] ∧ t.pw = [] ∧ t.crc = 0xFFFFFFFF) ∧
    (¬(∃ rest, s.host = .write 13 0x01000000 :: rest ∨ s.host = .reset :: rest) →
      t.failed = true ∧ t.cause = s.cause ∧ t.faddr = s.faddr)

/-! The register port (10_state.md). -/

/-- R26, R85, R27: a read of registers 0 to 12 returns the register and changes nothing, Failed or not. -/
def Obligations.ReadsOfDefinedRegisters : Prop :=
  ∀ (s : State) (rest : List HostEvent) (n : BitVec 6) (v : Word), s.host = .read n :: rest →
    (n, v) ∈ [((0 : BitVec 6), BitVec.ofNat 32 s.bs), (1, BitVec.ofNat 32 s.pwMax), (2, s.status), (3, s.faddr),
      (4, s.plen), (5, s.bcnt.setWidth 32), (6, BitVec.ofNat 32 s.ks.length), (7, BitVec.ofNat 32 s.pw.length),
      (8, s.crc), (9, ~~~s.crc), (10, s.dighex0), (11, s.dighex1), (12, s.data)] →
    step s = .next { s with host := rest, rdata := v :: s.rdata }

/-- R208, R85: illegal accesses outside the Failed state raise `IllegalAccess`; a refused read returns 0, a refused write stores nothing. -/
def Obligations.IllegalAccessesRaise : Prop :=
  ∀ (s : State) (rest : List HostEvent) (n : BitVec 6), s.failed = false →
    (s.host = .read n :: rest → 13 ≤ n.toNat →
      step s = .next (({ s with host := rest, rdata := 0 :: s.rdata } : State).faulted .illegalAccess 0)) ∧
    (∀ v : Word, s.host = .write n v :: rest → n ≠ 4 → n ≠ 5 → n ≠ 13 →
      step s = .next (({ s with host := rest } : State).faulted .illegalAccess 0))

/-- R33, R34: the two registers the host can write; `BCNT` stores `max(1, v[7:0])`. -/
def Obligations.WritesOfPlenAndBcnt : Prop :=
  ∀ (s : State) (rest : List HostEvent) (v : Word),
    (s.host = .write 4 v :: rest → step s = .next { s with host := rest, plen := v }) ∧
    (s.host = .write 5 v :: rest →
      ∃ b : BitVec 8, b.toNat = max 1 (v.toNat % 256) ∧ step s = .next { s with host := rest, bcnt := b })

/-- R28, R30, R200: the fields of `STATUS` by bit position, with the codes of `PASS` and `CAUSE`. -/
def Obligations.StatusWordLayout : Prop :=
  ∀ s : State, s.status.toNat =
    (if s.failed then 1 else 0) + 2 * (if s.ks.length = s.bs then 1 else 0) +
    4 * (if s.pass = .idle then 0 else if s.pass = .top then 1 else if s.pass = .bottom then 2 else 3) +
    16 * (if s.cause = .noFault then 0 else if s.cause = .illegalCommand then 1 else if s.cause = .sizeUnderflow then 2
      else if s.cause = .keystreamLength then 3 else if s.cause = .invalidStreamRead then 4
      else if s.cause = .invalidStreamWrite then 5 else if s.cause = .bufferOverflow then 6
      else if s.cause = .indexRange then 7 else 8) +
    256 * s.blkidx.toNat

/-- R36, R156: byte lane `k mod 4` of `DIGHEX0` (`k < 4`) or `DIGHEX1` is the ASCII character of hex digit `k` of `not32(CRC)`, the most significant
digit first. -/
def Obligations.DighexLanes : Prop :=
  ∀ (s : State) (k : Nat), k < 8 →
    (if k < 4 then s.dighex0 else s.dighex1).toNat / 256 ^ (k % 4) % 256 =
      if (~~~s.crc).toNat / 16 ^ (7 - k) % 16 ≤ 9 then 0x30 + (~~~s.crc).toNat / 16 ^ (7 - k) % 16
      else if s.hexCase = .upper then 0x41 + ((~~~s.crc).toNat / 16 ^ (7 - k) % 16 - 10)
      else 0x61 + ((~~~s.crc).toNat / 16 ^ (7 - k) % 16 - 10)

/-! Reset and the invariant (70_reset_and_hazards.md, 10_state.md R38). -/

/-- R231, R26: what every readable register reads right after reset. -/
def Obligations.ResetRegisterValues : Prop :=
  ∀ (n : BitVec 6) (v : Word),
    (n, v) ∈ [((0 : BitVec 6), BitVec.ofNat 32 Config.blockSize), (1, BitVec.ofNat 32 Config.pwMax), (2, 0), (3, 0),
      (4, 0), (5, 1), (6, 0), (7, 0), (8, 0xFFFFFFFF), (9, 0), (10, 0x30303030), (11, 0x30303030), (12, 0)] →
    State.reset.register n = some v

/-- R230, R231: the reset input puts every register in its reset value and touches neither payload memory nor the constants. -/
def Obligations.ResetInputResetsRegisters : Prop :=
  ∀ (s : State) (rest : List HostEvent), s.host = .reset :: rest →
    step s = .next { s with
      host := rest, ks := [], pw := [], failed := false, cause := .noFault, pass := .idle, blkidx := 0
      faddr := 0, plen := 0, bcnt := 1, crc := 0xFFFFFFFF, data := 0 }

/-- R232: the outcomes of commands right after reset. -/
def Obligations.OutcomesFromReset : Prop :=
  (∀ c, exec (.enc c) State.reset = .next (State.reset.faulted .sizeUnderflow 0)) ∧
  (∀ c, exec (.dec c) State.reset = .next (State.reset.faulted .sizeUnderflow 0)) ∧
  exec .crcscan State.reset = .next (State.reset.faulted .sizeUnderflow 0) ∧
  (∀ i, exec (.ksrd i) State.reset = .next (State.reset.faulted .indexRange 0)) ∧
  (∃ ks, exec .ksgen State.reset = .next { State.reset with ks := ks } ∧ ks.length = Config.blockSize ∧
    ∀ i < Config.blockSize, ks[i]? = some (BitVec.ofNat 8 i)) ∧
  (∀ b, exec (.crcb b) State.reset = .next { State.reset with crc := crcFold 0xFFFFFFFF b }) ∧
  State.reset.register 9 = some 0

/-- R38 at reset. -/
def Obligations.ResetMeetsInvariant : Prop := State.reset.Inv

/-- R38: every step keeps the invariant, and `BSIZE` and `PWMAX` never change. -/
def Obligations.StepKeepsInvariant : Prop :=
  ∀ s t : State, s.Inv → step s = .next t → t.Inv ∧ t.bs = s.bs ∧ t.pwMax = s.pwMax

/-! The control command (43_control.md). -/

/-- R170: `CLEAR`, in every state, Failed or not; `STATUS` reads 0 afterwards (a block has at least one byte, R7). -/
def Obligations.ClearDiscardsTheRun : Prop :=
  encode .clear = 0x01000000 ∧
  ∀ s : State, ∃ t, exec .clear s = .next t ∧ (1 ≤ s.bs → t.status = 0) ∧ t = { s with
    ks := [], pw := [], crc := 0xFFFFFFFF, data := 0, faddr := 0
    failed := false, cause := .noFault, pass := .idle, blkidx := 0 }

/-! The password buffer and the keystream generator (40_password_keystream.md). -/

/-- R110: `PWCLR`. -/
def Obligations.PwclrEmptiesThePassword : Prop :=
  encode .pwclr = 0x10000000 ∧ ∀ s : State, s.failed = false → exec .pwclr s = .next { s with pw := [] }

/-- R111: `PWPUSH` appends below the capacity and raises `BufferOverflow` at it, changing nothing else. -/
def Obligations.PwpushAppendsOrOverflows : Prop :=
  ∀ (s : State) (b : Byte), s.failed = false →
    encode (.pwpush b) = 0x11000000 + b.setWidth 32 ∧
    (s.pw.length < s.pwMax → exec (.pwpush b) s = .next { s with pw := s.pw ++ [b] }) ∧
    (s.pw.length = s.pwMax → exec (.pwpush b) s = .next (s.faulted .bufferOverflow 0))

/-- R113, R115: without a password `KSGEN` writes the ramp. -/
def Obligations.KsgenWithoutPasswordIsTheRamp : Prop :=
  ∀ s : State, s.failed = false → s.pw = [] →
    ∃ ks, exec .ksgen s = .next { s with ks := ks } ∧ ks.length = s.bs ∧ ∀ i < s.bs, ks[i]? = some (BitVec.ofNat 8 i)

/-- R116, R117: with a password of `L` bytes, the loop of R116 writes the closed form of R117. -/
def Obligations.KsgenClosedForm : Prop :=
  ∀ s : State, s.failed = false → s.pw.length > 0 →
    ∃ ks, exec .ksgen s = .next { s with ks := ks } ∧ ks.length = s.bs ∧
      ∀ i < s.bs,
        (i % (2 * s.pw.length + 1) % 2 = 0 ∧ i % (2 * s.pw.length + 1) < 2 * s.pw.length →
          ∃ p, s.pw[i % (2 * s.pw.length + 1) / 2]? = some p ∧ ks[i]? = some (BitVec.ofNat 8 i + p)) ∧
        (¬(i % (2 * s.pw.length + 1) % 2 = 0 ∧ i % (2 * s.pw.length + 1) < 2 * s.pw.length) →
          ks[i]? = some (BitVec.ofNat 8 i))

/-- R122 (e): a password of zero bytes gives the plain ramp. -/
def Obligations.ZeroPasswordIsTheRamp : Prop :=
  ∀ s : State, s.failed = false → (∀ p ∈ s.pw, p = 0) →
    ∃ ks, exec .ksgen s = .next { s with ks := ks } ∧ ks.length = s.bs ∧ ∀ i < s.bs, ks[i]? = some (BitVec.ofNat 8 i)

/-- R112: the keystream depends on `BLOCK_SIZE` and the password alone. -/
def Obligations.KsgenIsAFunctionOfPassword : Prop :=
  ∀ s t : State, s.failed = false → t.failed = false → s.bs = t.bs → s.pw = t.pw →
    ∃ ks, exec .ksgen s = .next { s with ks := ks } ∧ exec .ksgen t = .next { t with ks := ks }

/-- R119: `KSCLR`; `KSRDY` becomes 0 (a block has at least one byte, R7). -/
def Obligations.KsclrDiscardsTheKeystream : Prop :=
  encode .ksclr = 0x21000000 ∧ ∀ s : State, s.failed = false → 1 ≤ s.bs →
    ∃ t, exec .ksclr s = .next t ∧ t = { s with ks := [] } ∧ t.ksrdy = false

/-- R120: `KSPUSH` appends below `BS`, and makes `KSRDY` 1 when it fills the buffer; at `BS` it raises `BufferOverflow`, changing nothing else. -/
def Obligations.KspushAppendsOrOverflows : Prop :=
  ∀ (s : State) (b : Byte), s.failed = false →
    encode (.kspush b) = 0x22000000 + b.setWidth 32 ∧
    (s.ks.length < s.bs → ∃ t, exec (.kspush b) s = .next t ∧ t = { s with ks := s.ks ++ [b] } ∧
      (t.ksrdy = true ↔ s.ks.length + 1 = s.bs)) ∧
    (s.ks.length = s.bs → exec (.kspush b) s = .next (s.faulted .bufferOverflow 0))

/-- R121: `KSRD` puts a defined byte, zero-extended, in `DATA`, and raises `IndexRange` at or beyond `KSLEN`, changing nothing else. -/
def Obligations.KsrdReadsDefinedBytesOnly : Prop :=
  ∀ (s : State) (i : Nat), s.failed = false →
    (i < 2 ^ 24 → encode (.ksrd i) = 0x23000000 + BitVec.ofNat 32 i) ∧
    (i < s.ks.length → ∃ b, s.ks[i]? = some b ∧ exec (.ksrd i) s = .next { s with data := BitVec.ofNat 32 b.toNat }) ∧
    (s.ks.length ≤ i → exec (.ksrd i) s = .next (s.faulted .indexRange 0))

/-! The CRC accumulator (42_checksum.md). -/

/-- R151: `CRCINIT`; the digest of the empty byte string reads right after it. -/
def Obligations.CrcinitSeeds : Prop :=
  encode .crcinit = 0x40000000 ∧
  ∀ s : State, s.failed = false → ∃ t, exec .crcinit s = .next t ∧ t = { s with crc := 0xFFFFFFFF } ∧
    t.register 9 = some 0 ∧ t.register 10 = some 0x30303030 ∧ t.register 11 = some 0x30303030

/-- R152 with the fold of R150 written out: the byte enters the low byte, then eight turns of the loop. -/
def Obligations.CrcbFoldsOneByte : Prop :=
  ∀ (s : State) (b : Byte), s.failed = false →
    exec (.crcb b) s = .next { s with
      crc := (fun c : Word => if c.getLsbD 0 then (c >>> 1) ^^^ 0xEDB88320 else c >>> 1)^[8] (s.crc ^^^ b.setWidth 32) }

/-- R154: the table form of the fold, `T[n] = crc_fold(n, 0)`, with its sample entries. -/
def Obligations.CrcTableForm : Prop :=
  (∀ (c : Word) (b : Byte), crcFold c b = crcFold ((c ^^^ b.setWidth 32) &&& 0xFF) 0 ^^^ (c >>> 8)) ∧
  crcFold 0 0 = 0x00000000 ∧ crcFold 1 0 = 0x77073096 ∧ crcFold 2 0 = 0xEE0E612C ∧ crcFold 3 0 = 0x990951BA ∧
  crcFold 128 0 = 0xEDB88320 ∧ crcFold 255 0 = 0x2D02EF8D

/-- R153: `CRCSCAN` folds the bytes of both windows in traversal order and changes nothing but `CRC`, `PASS` and `BLKIDX`. -/
def Obligations.CrcscanFoldsBothWindows : Prop :=
  ∀ s : State, s.failed = false → s.bcnt ≠ 0 → s.Fits → s.WindowsReadable →
    exec .crcscan s = .next { s with
      crc := crcFoldBytes s.crc (s.blockBytes s.mem s.blocks), pass := .done
      blkidx := BitVec.ofNat 8 (s.bcnt.toNat - 1) }

/-- R159 (e): the scan's checksum, and whether the scan faults, do not depend on the keystream or the password. -/
def Obligations.CrcscanIgnoresKeystreamAndPassword : Prop :=
  ∀ (s : State) (ks pw : List Byte), ∃ t u,
    exec .crcscan s = .next t ∧ exec .crcscan { s with ks := ks, pw := pw } = .next u ∧
    u = { t with ks := ks, pw := pw }

/-- R153, R204: a scan stops at the first non-backed offset of block `j` of the traversal; the blocks before it are folded, this one is not. -/
def Obligations.CrcscanReadFault : Prop :=
  ∀ (s : State) (j k : Nat), s.failed = false → s.Fits → j < s.blocks → k < s.bs →
    (∀ j' < j, ∀ i < s.bs, s.readable (s.blockOffset j' + i) = true) →
    (∀ i < k, s.readable (s.blockOffset j + i) = true) → s.readable (s.blockOffset j + k) = false →
    exec .crcscan s = .next { s with
      crc := crcFoldBytes s.crc (s.blockBytes s.mem j)
      pass := if j < s.bcnt.toNat then .top else .bottom
      blkidx := BitVec.ofNat 8 (if j < s.bcnt.toNat then j else j - s.bcnt.toNat)
      failed := true, cause := .invalidStreamRead, faddr := BitVec.ofNat 32 (s.blockOffset j + k) }

/-! The block-chained XOR engine (41_blockchain.md). -/

/-- R134, R202: the size check, of `ENC`, `DEC` and `CRCSCAN` alike, before anything is touched. -/
def Obligations.SizeCheckFirst : Prop :=
  ∀ (s : State) (c : Bool), s.failed = false → s.bs * s.bcnt.toNat > s.plen.toNat →
    exec (.enc c) s = .next (s.faulted .sizeUnderflow 0) ∧ exec (.dec c) s = .next (s.faulted .sizeUnderflow 0) ∧
    exec .crcscan s = .next (s.faulted .sizeUnderflow 0)

/-- R133, R135, R203: the keystream check, after the size check passed and before anything is touched. -/
def Obligations.KeystreamCheckSecond : Prop :=
  ∀ (s : State) (c : Bool), s.failed = false → s.bs * s.bcnt.toNat ≤ s.plen.toNat → s.ks.length ≠ s.bs →
    exec (.enc c) s = .next (s.faulted .keystreamLength 0) ∧ exec (.dec c) s = .next (s.faulted .keystreamLength 0)

/-- R140, R132, R138: when both checks pass and every offset of the windows takes it, `ENC` completes, overlapping windows too: the blocks run one after
the other, each on what the one before it left (`State.Chained`). The keystream is the last block's ciphertext as it stands in memory; only the windows,
the keystream, `PASS`, `BLKIDX` and, coupled, `CRC` change. -/
def Obligations.EncCompletes : Prop :=
  ∀ (s : State) (c : Bool), s.failed = false → s.bcnt ≠ 0 → s.Fits → s.ks.length = s.bs → s.WindowsWritable →
    ∃ m ks crc, s.Chained true c s.blocks m ks crc ∧ exec (.enc c) s = .next { s with
        mem := m, ks := ks, crc := crc, pass := .done, blkidx := BitVec.ofNat 8 (s.bcnt.toNat - 1) } ∧
      ks.length = s.bs ∧ (∀ i < s.bs, ks[i]? = m.byteAt (s.blockOffset (s.blocks - 1) + i)) ∧
      (c = false → crc = s.crc) ∧ ∀ a, ¬s.InWindows a → m.byteAt a = s.mem.byteAt a

/-- R141, R132, R138: likewise `DEC` completes, its blocks running one after the other, each capturing its ciphertext from what the one before it left. -/
def Obligations.DecCompletes : Prop :=
  ∀ (s : State) (c : Bool), s.failed = false → s.bcnt ≠ 0 → s.Fits → s.ks.length = s.bs → s.WindowsWritable →
    ∃ m ks crc, s.Chained false c s.blocks m ks crc ∧ exec (.dec c) s = .next { s with
        mem := m, ks := ks, crc := crc, pass := .done, blkidx := BitVec.ofNat 8 (s.bcnt.toNat - 1) } ∧
      ks.length = s.bs ∧ (c = false → crc = s.crc) ∧ ∀ a, ¬s.InWindows a → m.byteAt a = s.mem.byteAt a

/-- R131, R136, R138, R142: what `ENC` computes when the windows do not overlap, in closed form (`State.Encoded`). -/
def Obligations.EncChainsCiphertext : Prop :=
  ∀ (s : State) (c : Bool), s.failed = false → s.bcnt ≠ 0 → s.Disjoint → s.ks.length = s.bs → s.WindowsWritable →
    ∃ m ks crc, exec (.enc c) s = .next { s with
        mem := m, ks := ks, crc := crc, pass := .done, blkidx := BitVec.ofNat 8 (s.bcnt.toNat - 1) } ∧
      s.Encoded c s.blocks m ks crc ∧ ∀ a, ¬s.InWindows a → m.byteAt a = s.mem.byteAt a

/-- R131, R137, R138, R142: what `DEC` computes when the windows do not overlap, in closed form (`State.Decoded`). -/
def Obligations.DecUnchainsCiphertext : Prop :=
  ∀ (s : State) (c : Bool), s.failed = false → s.bcnt ≠ 0 → s.Disjoint → s.ks.length = s.bs → s.WindowsWritable →
    ∃ m ks crc, exec (.dec c) s = .next { s with
        mem := m, ks := ks, crc := crc, pass := .done, blkidx := BitVec.ofNat 8 (s.bcnt.toNat - 1) } ∧
      s.Decoded c s.blocks m ks crc ∧ ∀ a, ¬s.InWindows a → m.byteAt a = s.mem.byteAt a

/-- R143: `DEC` with the initial keystream loaded again undoes `ENC` when the windows do not overlap, and ends with the same keystream. -/
def Obligations.DecUndoesEnc : Prop :=
  ∀ (s : State) (c d : Bool), s.failed = false → s.Disjoint → s.ks.length = s.bs → s.WindowsWritable →
    ∃ t u, exec (.enc c) s = .next t ∧ exec (.dec d) { t with ks := s.ks } = .next u ∧
      (∀ a, u.mem.byteAt a = s.mem.byteAt a) ∧ u.ks = t.ks ∧ u.failed = false

/-- R142: when the windows do not overlap, `ENC.C`, a scan of the encoded region, and `DEC.C` of the encoded region, started from one CRC value, end
with one CRC value. -/
def Obligations.CoupledAndScannedChecksumsAgree : Prop :=
  ∀ (s : State) (x : Word), s.failed = false → s.Disjoint → s.ks.length = s.bs → s.WindowsWritable →
    ∃ t u v, exec (.enc true) { s with crc := x } = .next t ∧ exec .crcscan { t with crc := x } = .next u ∧
      exec (.dec true) { t with ks := s.ks, crc := x } = .next v ∧ u.crc = t.crc ∧ v.crc = t.crc

/-- R141: with another keystream `DEC` still completes and, when the windows do not overlap, only the first block differs, in the positions where the
keystreams differ. -/
def Obligations.WrongKeystreamSpoilsFirstBlockOnly : Prop :=
  ∀ (s : State) (k : List Byte) (c : Bool), s.failed = false → s.bcnt ≠ 0 → s.Disjoint → s.ks.length = s.bs →
    k.length = s.bs → s.WindowsWritable →
    ∃ t u, exec (.dec c) s = .next t ∧ exec (.dec c) { s with ks := k } = .next u ∧
      t.failed = false ∧ u.failed = false ∧ t.ks = u.ks ∧ t.crc = u.crc ∧
      (∀ a, s.bs ≤ a → t.mem.byteAt a = u.mem.byteAt a) ∧
      ∀ i < s.bs, (t.mem.byteAt i = u.mem.byteAt i ↔ s.ks[i]? = k[i]?)

/-- R140 (corner case), 95_test_vectors.md V5: with `PLEN = BS` and one block, both windows are the whole region, and `ENC` leaves zeros whatever the
plaintext was; the general rule applies to overlapping windows (R132). -/
def Obligations.EncOfWholeRegionLeavesZeros : Prop :=
  ∀ (s : State) (c : Bool), s.failed = false → s.bcnt = 1 → s.plen.toNat = s.bs → s.ks.length = s.bs →
    (∀ a < s.bs, s.writable a = true) →
    ∃ t, exec (.enc c) s = .next t ∧ t.failed = false ∧ t.pass = .done ∧
      (∀ i < s.bs, t.mem.byteAt i = some 0 ∧ t.ks[i]? = some 0) ∧ ∀ a, s.bs ≤ a → t.mem.byteAt a = s.mem.byteAt a

/-- R139, R204: a read fault in block `j` of `ENC` or `DEC` at its first non-backed offset. Every earlier block is complete, and memory, the keystream and
`CRC` are as the block before left them (`State.Chained`; in closed form when the windows do not overlap); `PASS`, `BLKIDX` and `FADDR` name the place. -/
def Obligations.TransformReadFault : Prop :=
  ∀ (s : State) (enc c : Bool) (j k : Nat),
    s.failed = false → s.Fits → s.ks.length = s.bs → j < s.blocks → k < s.bs →
    (∀ j' < j, ∀ l < s.bs, s.writable (s.blockOffset j' + l) = true) →
    (∀ l < k, s.readable (s.blockOffset j + l) = true) → s.readable (s.blockOffset j + k) = false →
    ∃ m ks crc, s.Chained enc c j m ks crc ∧ exec (if enc then .enc c else .dec c) s = .next { s with
        mem := m, ks := ks, crc := crc
        pass := if j < s.bcnt.toNat then .top else .bottom
        blkidx := BitVec.ofNat 8 (if j < s.bcnt.toNat then j else j - s.bcnt.toNat)
        failed := true, cause := .invalidStreamRead, faddr := BitVec.ofNat 32 (s.blockOffset j + k) } ∧
      ks.length = s.bs ∧ (j = 0 → m = s.mem ∧ ks = s.ks ∧ crc = s.crc) ∧ (c = false → crc = s.crc) ∧
      (enc = true → 0 < j → ∀ l < s.bs, ks[l]? = m.byteAt (s.blockOffset (j - 1) + l)) ∧
      (s.Disjoint → if enc then s.Encoded c j m ks crc else s.Decoded c j m ks crc) ∧
      ∀ a, (∀ j' < j, ¬s.InBlock j' a) → m.byteAt a = s.mem.byteAt a

/-- R139, R205: a write fault in block `j` of `ENC` or `DEC`. The blocks before it are complete and left memory `m₀`, the keystream and `CRC`, which have not
advanced (`State.Chained`; in closed form when the windows do not overlap). Block `j` was read whole from `m₀`; its bytes before the faulting offset hold
their new values, the byte in `m₀` xor the keystream, and every other byte is as in `m₀`. -/
def Obligations.TransformWriteFault : Prop :=
  ∀ (s : State) (enc c : Bool) (j k : Nat),
    s.failed = false → s.Fits → s.ks.length = s.bs → j < s.blocks → k < s.bs →
    (∀ j' < j, ∀ l < s.bs, s.writable (s.blockOffset j' + l) = true) →
    (∀ l < s.bs, s.readable (s.blockOffset j + l) = true) →
    (∀ l < k, s.writable (s.blockOffset j + l) = true) → s.writable (s.blockOffset j + k) = false →
    ∃ m₀ m ks crc, s.Chained enc c j m₀ ks crc ∧ exec (if enc then .enc c else .dec c) s = .next { s with
        mem := m, ks := ks, crc := crc
        pass := if j < s.bcnt.toNat then .top else .bottom
        blkidx := BitVec.ofNat 8 (if j < s.bcnt.toNat then j else j - s.bcnt.toNat)
        failed := true, cause := .invalidStreamWrite, faddr := BitVec.ofNat 32 (s.blockOffset j + k) } ∧
      (∀ l < k, ∃ p q, m₀.byteAt (s.blockOffset j + l) = some p ∧ ks[l]? = some q ∧
        m.byteAt (s.blockOffset j + l) = some (p ^^^ q)) ∧
      (∀ a, ¬(s.blockOffset j ≤ a ∧ a < s.blockOffset j + k) → m.byteAt a = m₀.byteAt a) ∧
      ks.length = s.bs ∧ (j = 0 → ks = s.ks ∧ crc = s.crc) ∧ (c = false → crc = s.crc) ∧
      (enc = true → 0 < j → ∀ l < s.bs, ks[l]? = m₀.byteAt (s.blockOffset (j - 1) + l)) ∧
      (s.Disjoint → if enc then s.Encoded c j m ks crc else s.Decoded c j m ks crc) ∧
      ((∀ j' < j, ∀ l < s.bs, ¬s.InBlock j' (s.blockOffset j + l)) → ∀ l < s.bs,
        m₀.byteAt (s.blockOffset j + l) = s.mem.byteAt (s.blockOffset j + l)) ∧
      ∀ a, (∀ j' < j, ¬s.InBlock j' a) → ¬(s.blockOffset j ≤ a ∧ a < s.blockOffset j + k) →
        m.byteAt a = s.mem.byteAt a

/-! Payload memory (20_memory.md). -/

/-- R63: `MemRead`. -/
def Obligations.MemReadOfBackedOffset : Prop :=
  ∀ (s : State) (off : Nat), s.failed = false →
    (∀ b, s.mem.byteAt off = some b → s.memRead off = .ok b) ∧
    (s.readable off = false → s.memRead off = .error (s.faulted .invalidStreamRead (BitVec.ofNat 32 off)))

/-- R64: `MemWrite`: the location holds the byte afterwards and no other location changes, or it raises and no location changes. -/
def Obligations.MemWriteChangesOneByte : Prop :=
  ∀ (s : State) (off : Nat) (v : Byte), s.failed = false →
    (s.writable off = true → ∃ m, s.memWrite off v = .ok { s with mem := m } ∧ m.byteAt off = some v ∧
      ∀ a, a ≠ off → m.byteAt a = s.mem.byteAt a) ∧
    (s.writable off = false → s.memWrite off v = .error (s.faulted .invalidStreamWrite (BitVec.ofNat 32 off)))

/-- R65: no command changes which offsets are backed, or what the platform lets the engine write. -/
def Obligations.CommandsKeepBacking : Prop :=
  ∀ (i : Instr) (s t : State), exec i s = .next t →
    t.mem.map (·.1) = s.mem.map (·.1) ∧ ∀ a, t.readable a = s.readable a ∧ t.writable a = s.writable a

/-- R61, R130: a byte of payload memory changes only by `ENC` or `DEC`, inside a window, inside the payload region, and only if the size check
passes. -/
def Obligations.WritesStayInTheWindows : Prop :=
  ∀ (i : Instr) (s t : State) (a : Nat), exec i s = .next t → t.mem.byteAt a ≠ s.mem.byteAt a →
    (∃ c, i = .enc c ∨ i = .dec c) ∧ s.Fits ∧ s.InWindows a ∧ a < s.plen.toNat

/-- The host's own path to payload storage (00_scope.md R6, 30_encoding.md R92; the model's events, log entry 2): the block's registers do not
change. -/
def Obligations.HostPathToPayload : Prop :=
  ∀ (s : State) (rest : List HostEvent) (off : Word),
    (∀ v, s.host = .payPut off v :: rest → ∃ m, step s = .next { s with host := rest, mem := m } ∧
      m.byteAt off.toNat = some v ∧ ∀ a, a ≠ off.toNat → m.byteAt a = s.mem.byteAt a) ∧
    (s.host = .payDrop off :: rest → ∃ m, step s = .next { s with host := rest, mem := m } ∧
      m.byteAt off.toNat = none ∧ ∀ a, a ≠ off.toNat → m.byteAt a = s.mem.byteAt a)

/-! Frames (10_state.md R39). -/

/-- R39: what the commands that touch no payload leave unchanged, faulting or not: everything but their own buffer or register and the fault
record. -/
def Obligations.RegisterCommandsFrame : Prop :=
  ∀ (s t : State) (i : Instr), exec i s = .next t →
    ((i = .pwclr ∨ ∃ b, i = .pwpush b) →
      t = { s with pw := t.pw, failed := t.failed, cause := t.cause, faddr := t.faddr }) ∧
    ((i = .ksgen ∨ i = .ksclr ∨ ∃ b, i = .kspush b) →
      t = { s with ks := t.ks, failed := t.failed, cause := t.cause, faddr := t.faddr }) ∧
    ((∃ n, i = .ksrd n) → t = { s with data := t.data, failed := t.failed, cause := t.cause, faddr := t.faddr }) ∧
    ((i = .crcinit ∨ ∃ b, i = .crcb b) → t = { s with crc := t.crc })

/-- R39: what the traversals leave unchanged, faulting or not, with every byte outside the windows. -/
def Obligations.TraversalCommandsFrame : Prop :=
  ∀ (s t : State) (i : Instr), exec i s = .next t →
    ((∃ c, i = .enc c ∨ i = .dec c) →
      t = { s with
        mem := t.mem, ks := t.ks, crc := t.crc, pass := t.pass, blkidx := t.blkidx
        failed := t.failed, cause := t.cause, faddr := t.faddr } ∧
      t.ks.length = s.ks.length ∧ ∀ a, ¬s.InWindows a → t.mem.byteAt a = s.mem.byteAt a) ∧
    ((i = .enc false ∨ i = .dec false) → t.crc = s.crc) ∧
    (i = .crcscan →
      t = { s with
        crc := t.crc, pass := t.pass, blkidx := t.blkidx
        failed := t.failed, cause := t.cause, faddr := t.faddr })
end

