-- ==== Sys2Proof/Laws/State.lean ====
section
/-! SUPPORT. What each register update writes and leaves, one lemma per field and update, so that no proof unfolds a record update. -/

namespace Sys2Proof.Machine

@[simp] theorem State.setKs_bs (s : State) (v : List Byte) : (s.setKs v).bs = s.bs := rfl
@[simp] theorem State.setKs_pwMax (s : State) (v : List Byte) : (s.setKs v).pwMax = s.pwMax := rfl
@[simp] theorem State.setKs_hexCase (s : State) (v : List Byte) : (s.setKs v).hexCase = s.hexCase := rfl
@[simp] theorem State.setKs_ks (s : State) (v : List Byte) : (s.setKs v).ks = v := rfl
@[simp] theorem State.setKs_pw (s : State) (v : List Byte) : (s.setKs v).pw = s.pw := rfl
@[simp] theorem State.setKs_failed (s : State) (v : List Byte) : (s.setKs v).failed = s.failed := rfl
@[simp] theorem State.setKs_cause (s : State) (v : List Byte) : (s.setKs v).cause = s.cause := rfl
@[simp] theorem State.setKs_pass (s : State) (v : List Byte) : (s.setKs v).pass = s.pass := rfl
@[simp] theorem State.setKs_blkidx (s : State) (v : List Byte) : (s.setKs v).blkidx = s.blkidx := rfl
@[simp] theorem State.setKs_faddr (s : State) (v : List Byte) : (s.setKs v).faddr = s.faddr := rfl
@[simp] theorem State.setKs_plen (s : State) (v : List Byte) : (s.setKs v).plen = s.plen := rfl
@[simp] theorem State.setKs_bcnt (s : State) (v : List Byte) : (s.setKs v).bcnt = s.bcnt := rfl
@[simp] theorem State.setKs_crc (s : State) (v : List Byte) : (s.setKs v).crc = s.crc := rfl
@[simp] theorem State.setKs_data (s : State) (v : List Byte) : (s.setKs v).data = s.data := rfl
@[simp] theorem State.setKs_mem (s : State) (v : List Byte) : (s.setKs v).mem = s.mem := rfl
@[simp] theorem State.setKs_readOnly (s : State) (v : List Byte) : (s.setKs v).readOnly = s.readOnly := rfl
@[simp] theorem State.setKs_host (s : State) (v : List Byte) : (s.setKs v).host = s.host := rfl
@[simp] theorem State.setKs_rdata (s : State) (v : List Byte) : (s.setKs v).rdata = s.rdata := rfl

@[simp] theorem State.setPw_bs (s : State) (v : List Byte) : (s.setPw v).bs = s.bs := rfl
@[simp] theorem State.setPw_pwMax (s : State) (v : List Byte) : (s.setPw v).pwMax = s.pwMax := rfl
@[simp] theorem State.setPw_hexCase (s : State) (v : List Byte) : (s.setPw v).hexCase = s.hexCase := rfl
@[simp] theorem State.setPw_ks (s : State) (v : List Byte) : (s.setPw v).ks = s.ks := rfl
@[simp] theorem State.setPw_pw (s : State) (v : List Byte) : (s.setPw v).pw = v := rfl
@[simp] theorem State.setPw_failed (s : State) (v : List Byte) : (s.setPw v).failed = s.failed := rfl
@[simp] theorem State.setPw_cause (s : State) (v : List Byte) : (s.setPw v).cause = s.cause := rfl
@[simp] theorem State.setPw_pass (s : State) (v : List Byte) : (s.setPw v).pass = s.pass := rfl
@[simp] theorem State.setPw_blkidx (s : State) (v : List Byte) : (s.setPw v).blkidx = s.blkidx := rfl
@[simp] theorem State.setPw_faddr (s : State) (v : List Byte) : (s.setPw v).faddr = s.faddr := rfl
@[simp] theorem State.setPw_plen (s : State) (v : List Byte) : (s.setPw v).plen = s.plen := rfl
@[simp] theorem State.setPw_bcnt (s : State) (v : List Byte) : (s.setPw v).bcnt = s.bcnt := rfl
@[simp] theorem State.setPw_crc (s : State) (v : List Byte) : (s.setPw v).crc = s.crc := rfl
@[simp] theorem State.setPw_data (s : State) (v : List Byte) : (s.setPw v).data = s.data := rfl
@[simp] theorem State.setPw_mem (s : State) (v : List Byte) : (s.setPw v).mem = s.mem := rfl
@[simp] theorem State.setPw_readOnly (s : State) (v : List Byte) : (s.setPw v).readOnly = s.readOnly := rfl
@[simp] theorem State.setPw_host (s : State) (v : List Byte) : (s.setPw v).host = s.host := rfl
@[simp] theorem State.setPw_rdata (s : State) (v : List Byte) : (s.setPw v).rdata = s.rdata := rfl

@[simp] theorem State.setPass_bs (s : State) (v : Pass) : (s.setPass v).bs = s.bs := rfl
@[simp] theorem State.setPass_pwMax (s : State) (v : Pass) : (s.setPass v).pwMax = s.pwMax := rfl
@[simp] theorem State.setPass_hexCase (s : State) (v : Pass) : (s.setPass v).hexCase = s.hexCase := rfl
@[simp] theorem State.setPass_ks (s : State) (v : Pass) : (s.setPass v).ks = s.ks := rfl
@[simp] theorem State.setPass_pw (s : State) (v : Pass) : (s.setPass v).pw = s.pw := rfl
@[simp] theorem State.setPass_failed (s : State) (v : Pass) : (s.setPass v).failed = s.failed := rfl
@[simp] theorem State.setPass_cause (s : State) (v : Pass) : (s.setPass v).cause = s.cause := rfl
@[simp] theorem State.setPass_pass (s : State) (v : Pass) : (s.setPass v).pass = v := rfl
@[simp] theorem State.setPass_blkidx (s : State) (v : Pass) : (s.setPass v).blkidx = s.blkidx := rfl
@[simp] theorem State.setPass_faddr (s : State) (v : Pass) : (s.setPass v).faddr = s.faddr := rfl
@[simp] theorem State.setPass_plen (s : State) (v : Pass) : (s.setPass v).plen = s.plen := rfl
@[simp] theorem State.setPass_bcnt (s : State) (v : Pass) : (s.setPass v).bcnt = s.bcnt := rfl
@[simp] theorem State.setPass_crc (s : State) (v : Pass) : (s.setPass v).crc = s.crc := rfl
@[simp] theorem State.setPass_data (s : State) (v : Pass) : (s.setPass v).data = s.data := rfl
@[simp] theorem State.setPass_mem (s : State) (v : Pass) : (s.setPass v).mem = s.mem := rfl
@[simp] theorem State.setPass_readOnly (s : State) (v : Pass) : (s.setPass v).readOnly = s.readOnly := rfl
@[simp] theorem State.setPass_host (s : State) (v : Pass) : (s.setPass v).host = s.host := rfl
@[simp] theorem State.setPass_rdata (s : State) (v : Pass) : (s.setPass v).rdata = s.rdata := rfl

@[simp] theorem State.setBlkidx_bs (s : State) (v : BitVec 8) : (s.setBlkidx v).bs = s.bs := rfl
@[simp] theorem State.setBlkidx_pwMax (s : State) (v : BitVec 8) : (s.setBlkidx v).pwMax = s.pwMax := rfl
@[simp] theorem State.setBlkidx_hexCase (s : State) (v : BitVec 8) : (s.setBlkidx v).hexCase = s.hexCase := rfl
@[simp] theorem State.setBlkidx_ks (s : State) (v : BitVec 8) : (s.setBlkidx v).ks = s.ks := rfl
@[simp] theorem State.setBlkidx_pw (s : State) (v : BitVec 8) : (s.setBlkidx v).pw = s.pw := rfl
@[simp] theorem State.setBlkidx_failed (s : State) (v : BitVec 8) : (s.setBlkidx v).failed = s.failed := rfl
@[simp] theorem State.setBlkidx_cause (s : State) (v : BitVec 8) : (s.setBlkidx v).cause = s.cause := rfl
@[simp] theorem State.setBlkidx_pass (s : State) (v : BitVec 8) : (s.setBlkidx v).pass = s.pass := rfl
@[simp] theorem State.setBlkidx_blkidx (s : State) (v : BitVec 8) : (s.setBlkidx v).blkidx = v := rfl
@[simp] theorem State.setBlkidx_faddr (s : State) (v : BitVec 8) : (s.setBlkidx v).faddr = s.faddr := rfl
@[simp] theorem State.setBlkidx_plen (s : State) (v : BitVec 8) : (s.setBlkidx v).plen = s.plen := rfl
@[simp] theorem State.setBlkidx_bcnt (s : State) (v : BitVec 8) : (s.setBlkidx v).bcnt = s.bcnt := rfl
@[simp] theorem State.setBlkidx_crc (s : State) (v : BitVec 8) : (s.setBlkidx v).crc = s.crc := rfl
@[simp] theorem State.setBlkidx_data (s : State) (v : BitVec 8) : (s.setBlkidx v).data = s.data := rfl
@[simp] theorem State.setBlkidx_mem (s : State) (v : BitVec 8) : (s.setBlkidx v).mem = s.mem := rfl
@[simp] theorem State.setBlkidx_readOnly (s : State) (v : BitVec 8) : (s.setBlkidx v).readOnly = s.readOnly := rfl
@[simp] theorem State.setBlkidx_host (s : State) (v : BitVec 8) : (s.setBlkidx v).host = s.host := rfl
@[simp] theorem State.setBlkidx_rdata (s : State) (v : BitVec 8) : (s.setBlkidx v).rdata = s.rdata := rfl

@[simp] theorem State.setPlen_bs (s : State) (v : Word) : (s.setPlen v).bs = s.bs := rfl
@[simp] theorem State.setPlen_pwMax (s : State) (v : Word) : (s.setPlen v).pwMax = s.pwMax := rfl
@[simp] theorem State.setPlen_hexCase (s : State) (v : Word) : (s.setPlen v).hexCase = s.hexCase := rfl
@[simp] theorem State.setPlen_ks (s : State) (v : Word) : (s.setPlen v).ks = s.ks := rfl
@[simp] theorem State.setPlen_pw (s : State) (v : Word) : (s.setPlen v).pw = s.pw := rfl
@[simp] theorem State.setPlen_failed (s : State) (v : Word) : (s.setPlen v).failed = s.failed := rfl
@[simp] theorem State.setPlen_cause (s : State) (v : Word) : (s.setPlen v).cause = s.cause := rfl
@[simp] theorem State.setPlen_pass (s : State) (v : Word) : (s.setPlen v).pass = s.pass := rfl
@[simp] theorem State.setPlen_blkidx (s : State) (v : Word) : (s.setPlen v).blkidx = s.blkidx := rfl
@[simp] theorem State.setPlen_faddr (s : State) (v : Word) : (s.setPlen v).faddr = s.faddr := rfl
@[simp] theorem State.setPlen_plen (s : State) (v : Word) : (s.setPlen v).plen = v := rfl
@[simp] theorem State.setPlen_bcnt (s : State) (v : Word) : (s.setPlen v).bcnt = s.bcnt := rfl
@[simp] theorem State.setPlen_crc (s : State) (v : Word) : (s.setPlen v).crc = s.crc := rfl
@[simp] theorem State.setPlen_data (s : State) (v : Word) : (s.setPlen v).data = s.data := rfl
@[simp] theorem State.setPlen_mem (s : State) (v : Word) : (s.setPlen v).mem = s.mem := rfl
@[simp] theorem State.setPlen_readOnly (s : State) (v : Word) : (s.setPlen v).readOnly = s.readOnly := rfl
@[simp] theorem State.setPlen_host (s : State) (v : Word) : (s.setPlen v).host = s.host := rfl
@[simp] theorem State.setPlen_rdata (s : State) (v : Word) : (s.setPlen v).rdata = s.rdata := rfl

@[simp] theorem State.setBcnt_bs (s : State) (v : BitVec 8) : (s.setBcnt v).bs = s.bs := rfl
@[simp] theorem State.setBcnt_pwMax (s : State) (v : BitVec 8) : (s.setBcnt v).pwMax = s.pwMax := rfl
@[simp] theorem State.setBcnt_hexCase (s : State) (v : BitVec 8) : (s.setBcnt v).hexCase = s.hexCase := rfl
@[simp] theorem State.setBcnt_ks (s : State) (v : BitVec 8) : (s.setBcnt v).ks = s.ks := rfl
@[simp] theorem State.setBcnt_pw (s : State) (v : BitVec 8) : (s.setBcnt v).pw = s.pw := rfl
@[simp] theorem State.setBcnt_failed (s : State) (v : BitVec 8) : (s.setBcnt v).failed = s.failed := rfl
@[simp] theorem State.setBcnt_cause (s : State) (v : BitVec 8) : (s.setBcnt v).cause = s.cause := rfl
@[simp] theorem State.setBcnt_pass (s : State) (v : BitVec 8) : (s.setBcnt v).pass = s.pass := rfl
@[simp] theorem State.setBcnt_blkidx (s : State) (v : BitVec 8) : (s.setBcnt v).blkidx = s.blkidx := rfl
@[simp] theorem State.setBcnt_faddr (s : State) (v : BitVec 8) : (s.setBcnt v).faddr = s.faddr := rfl
@[simp] theorem State.setBcnt_plen (s : State) (v : BitVec 8) : (s.setBcnt v).plen = s.plen := rfl
@[simp] theorem State.setBcnt_bcnt (s : State) (v : BitVec 8) : (s.setBcnt v).bcnt = v := rfl
@[simp] theorem State.setBcnt_crc (s : State) (v : BitVec 8) : (s.setBcnt v).crc = s.crc := rfl
@[simp] theorem State.setBcnt_data (s : State) (v : BitVec 8) : (s.setBcnt v).data = s.data := rfl
@[simp] theorem State.setBcnt_mem (s : State) (v : BitVec 8) : (s.setBcnt v).mem = s.mem := rfl
@[simp] theorem State.setBcnt_readOnly (s : State) (v : BitVec 8) : (s.setBcnt v).readOnly = s.readOnly := rfl
@[simp] theorem State.setBcnt_host (s : State) (v : BitVec 8) : (s.setBcnt v).host = s.host := rfl
@[simp] theorem State.setBcnt_rdata (s : State) (v : BitVec 8) : (s.setBcnt v).rdata = s.rdata := rfl

@[simp] theorem State.setCrc_bs (s : State) (v : Word) : (s.setCrc v).bs = s.bs := rfl
@[simp] theorem State.setCrc_pwMax (s : State) (v : Word) : (s.setCrc v).pwMax = s.pwMax := rfl
@[simp] theorem State.setCrc_hexCase (s : State) (v : Word) : (s.setCrc v).hexCase = s.hexCase := rfl
@[simp] theorem State.setCrc_ks (s : State) (v : Word) : (s.setCrc v).ks = s.ks := rfl
@[simp] theorem State.setCrc_pw (s : State) (v : Word) : (s.setCrc v).pw = s.pw := rfl
@[simp] theorem State.setCrc_failed (s : State) (v : Word) : (s.setCrc v).failed = s.failed := rfl
@[simp] theorem State.setCrc_cause (s : State) (v : Word) : (s.setCrc v).cause = s.cause := rfl
@[simp] theorem State.setCrc_pass (s : State) (v : Word) : (s.setCrc v).pass = s.pass := rfl
@[simp] theorem State.setCrc_blkidx (s : State) (v : Word) : (s.setCrc v).blkidx = s.blkidx := rfl
@[simp] theorem State.setCrc_faddr (s : State) (v : Word) : (s.setCrc v).faddr = s.faddr := rfl
@[simp] theorem State.setCrc_plen (s : State) (v : Word) : (s.setCrc v).plen = s.plen := rfl
@[simp] theorem State.setCrc_bcnt (s : State) (v : Word) : (s.setCrc v).bcnt = s.bcnt := rfl
@[simp] theorem State.setCrc_crc (s : State) (v : Word) : (s.setCrc v).crc = v := rfl
@[simp] theorem State.setCrc_data (s : State) (v : Word) : (s.setCrc v).data = s.data := rfl
@[simp] theorem State.setCrc_mem (s : State) (v : Word) : (s.setCrc v).mem = s.mem := rfl
@[simp] theorem State.setCrc_readOnly (s : State) (v : Word) : (s.setCrc v).readOnly = s.readOnly := rfl
@[simp] theorem State.setCrc_host (s : State) (v : Word) : (s.setCrc v).host = s.host := rfl
@[simp] theorem State.setCrc_rdata (s : State) (v : Word) : (s.setCrc v).rdata = s.rdata := rfl

@[simp] theorem State.setData_bs (s : State) (v : Word) : (s.setData v).bs = s.bs := rfl
@[simp] theorem State.setData_pwMax (s : State) (v : Word) : (s.setData v).pwMax = s.pwMax := rfl
@[simp] theorem State.setData_hexCase (s : State) (v : Word) : (s.setData v).hexCase = s.hexCase := rfl
@[simp] theorem State.setData_ks (s : State) (v : Word) : (s.setData v).ks = s.ks := rfl
@[simp] theorem State.setData_pw (s : State) (v : Word) : (s.setData v).pw = s.pw := rfl
@[simp] theorem State.setData_failed (s : State) (v : Word) : (s.setData v).failed = s.failed := rfl
@[simp] theorem State.setData_cause (s : State) (v : Word) : (s.setData v).cause = s.cause := rfl
@[simp] theorem State.setData_pass (s : State) (v : Word) : (s.setData v).pass = s.pass := rfl
@[simp] theorem State.setData_blkidx (s : State) (v : Word) : (s.setData v).blkidx = s.blkidx := rfl
@[simp] theorem State.setData_faddr (s : State) (v : Word) : (s.setData v).faddr = s.faddr := rfl
@[simp] theorem State.setData_plen (s : State) (v : Word) : (s.setData v).plen = s.plen := rfl
@[simp] theorem State.setData_bcnt (s : State) (v : Word) : (s.setData v).bcnt = s.bcnt := rfl
@[simp] theorem State.setData_crc (s : State) (v : Word) : (s.setData v).crc = s.crc := rfl
@[simp] theorem State.setData_data (s : State) (v : Word) : (s.setData v).data = v := rfl
@[simp] theorem State.setData_mem (s : State) (v : Word) : (s.setData v).mem = s.mem := rfl
@[simp] theorem State.setData_readOnly (s : State) (v : Word) : (s.setData v).readOnly = s.readOnly := rfl
@[simp] theorem State.setData_host (s : State) (v : Word) : (s.setData v).host = s.host := rfl
@[simp] theorem State.setData_rdata (s : State) (v : Word) : (s.setData v).rdata = s.rdata := rfl

@[simp] theorem State.setMem_bs (s : State) (v : Mem) : (s.setMem v).bs = s.bs := rfl
@[simp] theorem State.setMem_pwMax (s : State) (v : Mem) : (s.setMem v).pwMax = s.pwMax := rfl
@[simp] theorem State.setMem_hexCase (s : State) (v : Mem) : (s.setMem v).hexCase = s.hexCase := rfl
@[simp] theorem State.setMem_ks (s : State) (v : Mem) : (s.setMem v).ks = s.ks := rfl
@[simp] theorem State.setMem_pw (s : State) (v : Mem) : (s.setMem v).pw = s.pw := rfl
@[simp] theorem State.setMem_failed (s : State) (v : Mem) : (s.setMem v).failed = s.failed := rfl
@[simp] theorem State.setMem_cause (s : State) (v : Mem) : (s.setMem v).cause = s.cause := rfl
@[simp] theorem State.setMem_pass (s : State) (v : Mem) : (s.setMem v).pass = s.pass := rfl
@[simp] theorem State.setMem_blkidx (s : State) (v : Mem) : (s.setMem v).blkidx = s.blkidx := rfl
@[simp] theorem State.setMem_faddr (s : State) (v : Mem) : (s.setMem v).faddr = s.faddr := rfl
@[simp] theorem State.setMem_plen (s : State) (v : Mem) : (s.setMem v).plen = s.plen := rfl
@[simp] theorem State.setMem_bcnt (s : State) (v : Mem) : (s.setMem v).bcnt = s.bcnt := rfl
@[simp] theorem State.setMem_crc (s : State) (v : Mem) : (s.setMem v).crc = s.crc := rfl
@[simp] theorem State.setMem_data (s : State) (v : Mem) : (s.setMem v).data = s.data := rfl
@[simp] theorem State.setMem_mem (s : State) (v : Mem) : (s.setMem v).mem = v := rfl
@[simp] theorem State.setMem_readOnly (s : State) (v : Mem) : (s.setMem v).readOnly = s.readOnly := rfl
@[simp] theorem State.setMem_host (s : State) (v : Mem) : (s.setMem v).host = s.host := rfl
@[simp] theorem State.setMem_rdata (s : State) (v : Mem) : (s.setMem v).rdata = s.rdata := rfl

@[simp] theorem State.setHost_bs (s : State) (v : List HostEvent) : (s.setHost v).bs = s.bs := rfl
@[simp] theorem State.setHost_pwMax (s : State) (v : List HostEvent) : (s.setHost v).pwMax = s.pwMax := rfl
@[simp] theorem State.setHost_hexCase (s : State) (v : List HostEvent) : (s.setHost v).hexCase = s.hexCase := rfl
@[simp] theorem State.setHost_ks (s : State) (v : List HostEvent) : (s.setHost v).ks = s.ks := rfl
@[simp] theorem State.setHost_pw (s : State) (v : List HostEvent) : (s.setHost v).pw = s.pw := rfl
@[simp] theorem State.setHost_failed (s : State) (v : List HostEvent) : (s.setHost v).failed = s.failed := rfl
@[simp] theorem State.setHost_cause (s : State) (v : List HostEvent) : (s.setHost v).cause = s.cause := rfl
@[simp] theorem State.setHost_pass (s : State) (v : List HostEvent) : (s.setHost v).pass = s.pass := rfl
@[simp] theorem State.setHost_blkidx (s : State) (v : List HostEvent) : (s.setHost v).blkidx = s.blkidx := rfl
@[simp] theorem State.setHost_faddr (s : State) (v : List HostEvent) : (s.setHost v).faddr = s.faddr := rfl
@[simp] theorem State.setHost_plen (s : State) (v : List HostEvent) : (s.setHost v).plen = s.plen := rfl
@[simp] theorem State.setHost_bcnt (s : State) (v : List HostEvent) : (s.setHost v).bcnt = s.bcnt := rfl
@[simp] theorem State.setHost_crc (s : State) (v : List HostEvent) : (s.setHost v).crc = s.crc := rfl
@[simp] theorem State.setHost_data (s : State) (v : List HostEvent) : (s.setHost v).data = s.data := rfl
@[simp] theorem State.setHost_mem (s : State) (v : List HostEvent) : (s.setHost v).mem = s.mem := rfl
@[simp] theorem State.setHost_readOnly (s : State) (v : List HostEvent) : (s.setHost v).readOnly = s.readOnly := rfl
@[simp] theorem State.setHost_host (s : State) (v : List HostEvent) : (s.setHost v).host = v := rfl
@[simp] theorem State.setHost_rdata (s : State) (v : List HostEvent) : (s.setHost v).rdata = s.rdata := rfl

@[simp] theorem State.answer_bs (s : State) (v : Word) : (s.answer v).bs = s.bs := rfl
@[simp] theorem State.answer_pwMax (s : State) (v : Word) : (s.answer v).pwMax = s.pwMax := rfl
@[simp] theorem State.answer_hexCase (s : State) (v : Word) : (s.answer v).hexCase = s.hexCase := rfl
@[simp] theorem State.answer_ks (s : State) (v : Word) : (s.answer v).ks = s.ks := rfl
@[simp] theorem State.answer_pw (s : State) (v : Word) : (s.answer v).pw = s.pw := rfl
@[simp] theorem State.answer_failed (s : State) (v : Word) : (s.answer v).failed = s.failed := rfl
@[simp] theorem State.answer_cause (s : State) (v : Word) : (s.answer v).cause = s.cause := rfl
@[simp] theorem State.answer_pass (s : State) (v : Word) : (s.answer v).pass = s.pass := rfl
@[simp] theorem State.answer_blkidx (s : State) (v : Word) : (s.answer v).blkidx = s.blkidx := rfl
@[simp] theorem State.answer_faddr (s : State) (v : Word) : (s.answer v).faddr = s.faddr := rfl
@[simp] theorem State.answer_plen (s : State) (v : Word) : (s.answer v).plen = s.plen := rfl
@[simp] theorem State.answer_bcnt (s : State) (v : Word) : (s.answer v).bcnt = s.bcnt := rfl
@[simp] theorem State.answer_crc (s : State) (v : Word) : (s.answer v).crc = s.crc := rfl
@[simp] theorem State.answer_data (s : State) (v : Word) : (s.answer v).data = s.data := rfl
@[simp] theorem State.answer_mem (s : State) (v : Word) : (s.answer v).mem = s.mem := rfl
@[simp] theorem State.answer_readOnly (s : State) (v : Word) : (s.answer v).readOnly = s.readOnly := rfl
@[simp] theorem State.answer_host (s : State) (v : Word) : (s.answer v).host = s.host := rfl
@[simp] theorem State.answer_rdata (s : State) (v : Word) : (s.answer v).rdata = v :: s.rdata := rfl

/-- Fault entry outside the Failed state (60_exceptions.md R210). -/
theorem State.raise_of_running {s : State} (h : s.failed = false) (c : Cause) (info : Word) :
    s.raise c info = { s with failed := true, cause := c, faddr := if c.recordsOffset then info else 0 } := by
  simp [State.raise, h]

/-- The first fault is kept (60_exceptions.md R211). -/
theorem State.raise_of_failed {s : State} (h : s.failed = true) (c : Cause) (info : Word) : s.raise c info = s := by
  simp [State.raise, h]

@[simp] theorem State.raise_failed (s : State) (c : Cause) (info : Word) : (s.raise c info).failed = true := by
  unfold State.raise; split <;> simp_all

@[simp] theorem State.raise_bs (s : State) (c : Cause) (info : Word) : (s.raise c info).bs = s.bs := by
  unfold State.raise; split <;> rfl
@[simp] theorem State.raise_pwMax (s : State) (c : Cause) (info : Word) : (s.raise c info).pwMax = s.pwMax := by
  unfold State.raise; split <;> rfl
@[simp] theorem State.raise_hexCase (s : State) (c : Cause) (info : Word) : (s.raise c info).hexCase = s.hexCase := by
  unfold State.raise; split <;> rfl
@[simp] theorem State.raise_ks (s : State) (c : Cause) (info : Word) : (s.raise c info).ks = s.ks := by
  unfold State.raise; split <;> rfl
@[simp] theorem State.raise_pw (s : State) (c : Cause) (info : Word) : (s.raise c info).pw = s.pw := by
  unfold State.raise; split <;> rfl
@[simp] theorem State.raise_pass (s : State) (c : Cause) (info : Word) : (s.raise c info).pass = s.pass := by
  unfold State.raise; split <;> rfl
@[simp] theorem State.raise_blkidx (s : State) (c : Cause) (info : Word) : (s.raise c info).blkidx = s.blkidx := by
  unfold State.raise; split <;> rfl
@[simp] theorem State.raise_plen (s : State) (c : Cause) (info : Word) : (s.raise c info).plen = s.plen := by
  unfold State.raise; split <;> rfl
@[simp] theorem State.raise_bcnt (s : State) (c : Cause) (info : Word) : (s.raise c info).bcnt = s.bcnt := by
  unfold State.raise; split <;> rfl
@[simp] theorem State.raise_crc (s : State) (c : Cause) (info : Word) : (s.raise c info).crc = s.crc := by
  unfold State.raise; split <;> rfl
@[simp] theorem State.raise_data (s : State) (c : Cause) (info : Word) : (s.raise c info).data = s.data := by
  unfold State.raise; split <;> rfl
@[simp] theorem State.raise_mem (s : State) (c : Cause) (info : Word) : (s.raise c info).mem = s.mem := by
  unfold State.raise; split <;> rfl
@[simp] theorem State.raise_readOnly (s : State) (c : Cause) (info : Word) : (s.raise c info).readOnly = s.readOnly := by
  unfold State.raise; split <;> rfl
@[simp] theorem State.raise_host (s : State) (c : Cause) (info : Word) : (s.raise c info).host = s.host := by
  unfold State.raise; split <;> rfl
@[simp] theorem State.raise_rdata (s : State) (c : Cause) (info : Word) : (s.raise c info).rdata = s.rdata := by
  unfold State.raise; split <;> rfl

/-- What a record update of one field does twice is what the second does. -/
@[simp] theorem State.setHost_setHost (s : State) (u v : List HostEvent) : (s.setHost u).setHost v = s.setHost v := rfl

@[simp] theorem State.setMem_setMem (s : State) (u v : Mem) : (s.setMem u).setMem v = s.setMem v := rfl

@[simp] theorem State.setHost_self (s : State) : s.setHost s.host = s := rfl

end Sys2Proof.Machine
end

