-- ==== Sys2Proof/Laws/Memory.lean ====
section
/-! SUPPORT. Payload memory (20_memory.md R63 to R68): read after write, what a write leaves alone, the canonical form, and what a run of byte
reads or byte writes can do. -/

namespace Sys2Proof.Machine

/-! One byte. -/

/-- A write keeps which offsets are backed, and changes the written one only. -/
theorem Mem.byteAt_write (m : Mem) (off a : Nat) (v : Byte) :
    (m.write off v).byteAt a = if a = off ∧ (m.byteAt off).isSome then some v else m.byteAt a := by
  induction m with
  | nil => simp [Mem.write, Mem.byteAt]
  | cons cell m ih =>
    obtain ⟨b, w⟩ := cell
    by_cases hb : b = off
    · subst hb
      by_cases ha : a = b
      · subst ha; simp [Mem.write, Mem.byteAt]
      · simp [Mem.write, Mem.byteAt, ha, Ne.symm ha]
    · by_cases ha : b = a
      · subst ha; simp [Mem.write, Mem.byteAt, hb]
      · simp [Mem.write, Mem.byteAt, hb, ha, ih]

theorem Mem.byteAt_write_same {m : Mem} {off : Nat} (h : (m.byteAt off).isSome) (v : Byte) :
    (m.write off v).byteAt off = some v := by
  simp [Mem.byteAt_write, h]

theorem Mem.byteAt_write_other (m : Mem) {off a : Nat} (h : a ≠ off) (v : Byte) :
    (m.write off v).byteAt a = m.byteAt a := by
  simp [Mem.byteAt_write, h]

theorem Mem.backed_write (m : Mem) (off a : Nat) (v : Byte) :
    ((m.write off v).byteAt a).isSome = (m.byteAt a).isSome := by
  rw [Mem.byteAt_write]; split
  · rename_i h; rw [h.1, h.2]; rfl
  · rfl

/-- The host's own path backs the offset with the byte and leaves every other one alone. -/
theorem Mem.byteAt_put (m : Mem) (off a : Nat) (v : Byte) :
    (m.put off v).byteAt a = if a = off then some v else m.byteAt a := by
  induction m with
  | nil => simp [Mem.put, Mem.byteAt, eq_comm]
  | cons cell m ih =>
    obtain ⟨b, w⟩ := cell
    unfold Mem.put
    split
    · simp [Mem.byteAt, eq_comm]
    · split
      · rename_i h; subst h
        by_cases ha : a = b <;> simp [Mem.byteAt, ha, Ne.symm]
      · rename_i _ h
        by_cases ha : b = a
        · subst ha; simp [Mem.byteAt, h]
        · simp [Mem.byteAt, ha, ih]

/-- Taking the storage away leaves every other offset alone. -/
theorem Mem.byteAt_drop (m : Mem) (off a : Nat) :
    (m.drop off).byteAt a = if a = off then none else m.byteAt a := by
  induction m with
  | nil => simp [Mem.drop, Mem.byteAt]
  | cons cell m ih =>
    obtain ⟨b, w⟩ := cell
    unfold Mem.drop at ih
    by_cases hb : b = off
    · subst hb
      by_cases ha : a = b
      · simp_all [Mem.drop]
      · simp [Mem.drop, Mem.byteAt, ih, ha, Ne.symm ha]
    · by_cases ha : b = a
      · subst ha; simp [Mem.drop, Mem.byteAt, hb]
      · simp [Mem.drop, Mem.byteAt, hb, ha, ih]

/-! The canonical form. -/

theorem Mem.keys_write (m : Mem) (off : Nat) (v : Byte) : (m.write off v).map (·.1) = m.map (·.1) := by
  induction m with
  | nil => rfl
  | cons cell m ih =>
    obtain ⟨b, w⟩ := cell
    by_cases hb : b = off <;> simp [Mem.write, hb, ih]

/-- The canonical form is a property of the listed offsets alone. -/
theorem Mem.wf_iff_keys (m : Mem) :
    m.wf ↔ (m.map (·.1)).Pairwise (· < ·) ∧ ∀ a ∈ m.map (·.1), a < 2 ^ 32 := by
  simp [Mem.wf, List.pairwise_map]

theorem Mem.wf_write {m : Mem} (h : m.wf) (off : Nat) (v : Byte) : (m.write off v).wf := by
  rw [Mem.wf_iff_keys] at *; rwa [Mem.keys_write]

theorem Mem.mem_put {m : Mem} {off : Nat} {v : Byte} {cell : Host.Cell} (h : cell ∈ m.put off v) :
    cell.1 = off ∨ cell ∈ m := by
  induction m with
  | nil => simp [Mem.put] at h; simp [h]
  | cons head m ih =>
    obtain ⟨b, w⟩ := head
    unfold Mem.put at h
    split at h
    · rcases List.mem_cons.1 h with rfl | h <;> simp_all
    · split at h
      · rcases List.mem_cons.1 h with rfl | h <;> simp_all
      · rcases List.mem_cons.1 h with rfl | h
        · simp
        · rcases ih h with h | h <;> simp [h]

theorem Mem.wf_put {m : Mem} (h : m.wf) {off : Nat} (hoff : off < 2 ^ 32) (v : Byte) : (m.put off v).wf := by
  refine ⟨?_, fun cell hc => (Mem.mem_put hc).elim (· ▸ hoff) (h.2 cell)⟩
  obtain ⟨h, -⟩ := h
  induction m with
  | nil => simp [Mem.put]
  | cons head m ih =>
    obtain ⟨b, w⟩ := head
    obtain ⟨hb, hm⟩ := List.pairwise_cons.1 h
    unfold Mem.put
    split
    · rename_i hlt
      exact List.pairwise_cons.2 ⟨fun c hc => by
        rcases List.mem_cons.1 hc with rfl | hc
        · exact hlt
        · exact hlt.trans (hb c hc), h⟩
    · split
      · rename_i heq; subst heq; exact List.pairwise_cons.2 ⟨hb, hm⟩
      · rename_i hlt hne
        refine List.pairwise_cons.2 ⟨fun c hc => ?_, ih hm⟩
        rcases Mem.mem_put hc with h | h
        · simp only [h]; omega
        · exact hb c h

theorem Mem.wf_drop {m : Mem} (h : m.wf) (off : Nat) : (m.drop off).wf :=
  ⟨h.1.filter _, fun cell hc => h.2 cell (List.mem_of_mem_filter hc)⟩

/-! One engine access. -/

/-- `MemRead` (20_memory.md R63): a backed offset answers its byte, any other raises. -/
theorem State.memRead_cases (s : State) (off : Nat) :
    (∃ b, s.mem.byteAt off = some b ∧ s.memRead off = .ok b) ∨
    (s.readable off = false ∧ s.memRead off = .error (s.raise .invalidStreamRead (BitVec.ofNat 32 off))) := by
  unfold State.memRead State.readable
  cases h : s.mem.byteAt off <;> simp

/-- `MemWrite` (20_memory.md R64): a writable offset takes the byte, any other raises. -/
theorem State.memWrite_cases (s : State) (off : Nat) (v : Byte) :
    (s.writable off = true ∧ s.memWrite off v = .ok (s.setMem (s.mem.write off v))) ∨
    (s.writable off = false ∧ s.memWrite off v = .error (s.raise .invalidStreamWrite (BitVec.ofNat 32 off))) := by
  unfold State.memWrite
  cases h : s.writable off <;> simp

/-- What the engine can access is settled by which offsets are backed and by the platform. -/
theorem State.writable_congr {s t : State} (hb : ∀ a, (t.mem.byteAt a).isSome = (s.mem.byteAt a).isSome)
    (hr : t.readOnly = s.readOnly) (a : Nat) : t.writable a = s.writable a := by
  simp [State.writable, State.readable, hb, hr]

theorem State.readable_of_writable {s : State} {a : Nat} (h : s.writable a = true) : s.readable a = true := by
  simp only [State.writable, Bool.and_eq_true] at h; exact h.1

/-! A run of byte reads. -/

/-- Reading a run of readable offsets answers as many bytes, each the one behind its offset. -/
theorem State.readBytes_ok {s : State} {off n : Nat} (h : ∀ i < n, s.readable (off + i) = true) :
    ∃ bytes, s.readBytes off n = .ok bytes ∧ bytes.length = n ∧ ∀ i < n, bytes[i]? = s.mem.byteAt (off + i) := by
  induction n generalizing off with
  | zero => exact ⟨[], by simp [State.readBytes]⟩
  | succ n ih =>
    obtain ⟨bytes, hr, hl, hb⟩ := @ih (off + 1) fun i hi => by
      have := h (i + 1) (by omega); rwa [show off + (i + 1) = off + 1 + i by omega] at this
    rcases s.memRead_cases off with ⟨b, hm, hb'⟩ | ⟨hu, -⟩
    · refine ⟨b :: bytes, by simp [State.readBytes, hb', hr], by simp [hl], fun i hi => ?_⟩
      cases i with
      | zero => simp [hm]
      | succ i => rw [List.getElem?_cons_succ, hb i (by omega)]; congr 1; omega
    · have := h 0 (by omega); simp_all

/-- A run of reads that answers has read that many bytes, each from a backed offset. -/
theorem State.readBytes_eq_ok {s : State} {off n : Nat} {bytes : List Byte} (h : s.readBytes off n = .ok bytes) :
    bytes.length = n ∧ ∀ i < n, bytes[i]? = s.mem.byteAt (off + i) ∧ s.readable (off + i) = true := by
  induction n generalizing off bytes with
  | zero => simp [State.readBytes] at h; simp [h]
  | succ n ih =>
    unfold State.readBytes at h
    rcases s.memRead_cases off with ⟨b, hm, hb⟩ | ⟨-, hb⟩ <;> rw [hb] at h
    · simp only at h
      split at h
      · cases h
      · rename_i rest hrest
        cases h
        obtain ⟨hl, hi⟩ := ih hrest
        refine ⟨by simp [hl], fun i hlt => ?_⟩
        cases i with
        | zero => simp [hm, State.readable]
        | succ i =>
          have := hi i (by omega)
          rw [show off + 1 + i = off + (i + 1) by omega] at this
          simpa using this
    · cases h

/-- The first non-backed offset of a run stops it there, with the fault record and nothing else written (41_blockchain.md R139). -/
theorem State.readBytes_fault {s : State} {off n k : Nat} (hk : k < n) (h : ∀ i < k, s.readable (off + i) = true)
    (hu : s.readable (off + k) = false) :
    s.readBytes off n = .error (s.raise .invalidStreamRead (BitVec.ofNat 32 (off + k))) := by
  induction n generalizing off k with
  | zero => omega
  | succ n ih =>
    rcases s.memRead_cases off with ⟨b, hm, hb⟩ | ⟨hur, hb⟩
    · cases k with
      | zero => simp [State.readable, hm] at hu
      | succ k =>
        have := @ih (off + 1) k (by omega)
          (fun i hi => by have := h (i + 1) (by omega); rwa [show off + (i + 1) = off + 1 + i by omega] at this)
          (by rwa [show off + 1 + k = off + (k + 1) by omega])
        simp [State.readBytes, hb, this, show off + 1 + k = off + (k + 1) by omega]
    · cases k with
      | zero => simp [State.readBytes, hb]
      | succ k => have := h 0 (by omega); simp_all

/-- A run of reads that stops has raised `InvalidStreamRead` at an offset of the run that is not backed. -/
theorem State.readBytes_eq_error {s stopped : State} {off n : Nat} (h : s.readBytes off n = .error stopped) :
    ∃ k < n, s.readable (off + k) = false ∧ (∀ i < k, s.readable (off + i) = true) ∧
      stopped = s.raise .invalidStreamRead (BitVec.ofNat 32 (off + k)) := by
  by_cases hall : ∃ k, k < n ∧ s.readable (off + k) = false
  · have hmin := Nat.find_spec hall
    have hbelow : ∀ i < Nat.find hall, s.readable (off + i) = true := fun i hi => by
      have := Nat.find_min hall hi
      have hin : i < n := by omega
      simpa [hin] using this
    refine ⟨Nat.find hall, hmin.1, hmin.2, hbelow, ?_⟩
    rw [State.readBytes_fault hmin.1 hbelow hmin.2] at h
    exact (Except.error.inj h).symm
  · push Not at hall
    obtain ⟨bytes, hr, -⟩ := @State.readBytes_ok s off n fun i hi => by simpa using hall i hi
    rw [hr] at h; cases h

/-! A run of byte writes. -/

/-- Writing a run of writable offsets changes memory only, and there only the written offsets. -/
theorem State.writeBytes_ok {s : State} {off : Nat} {bytes : List Byte}
    (h : ∀ i < bytes.length, s.writable (off + i) = true) :
    ∃ m, s.writeBytes off bytes = .ok (s.setMem m) ∧
      (∀ i < bytes.length, m.byteAt (off + i) = bytes[i]?) ∧
      (∀ a, a < off ∨ off + bytes.length ≤ a → m.byteAt a = s.mem.byteAt a) ∧
      m.map (·.1) = s.mem.map (·.1) ∧ ∀ a, (m.byteAt a).isSome = (s.mem.byteAt a).isSome := by
  induction bytes generalizing s off with
  | nil => exact ⟨s.mem, by simp [State.writeBytes, State.setMem]⟩
  | cons b bytes ih =>
    rcases s.memWrite_cases off b with ⟨hw, hm⟩ | ⟨hu, -⟩
    · have hcongr := @State.writable_congr s (s.setMem (s.mem.write off b))
        (fun a => Mem.backed_write s.mem off a b) rfl
      obtain ⟨m, hr, hin, hout, hkeys, hback⟩ := @ih (s.setMem (s.mem.write off b)) (off + 1) fun i hi => by
        rw [hcongr, show off + 1 + i = off + (i + 1) by omega]; exact h (i + 1) (by simpa using hi)
      refine ⟨m, by simp [State.writeBytes, hm, hr], fun i hi => ?_, fun a ha => ?_, ?_, fun a => ?_⟩
      · cases i with
        | zero =>
          rw [hout _ (by omega)]
          simpa using Mem.byteAt_write_same (State.readable_of_writable hw) b
        | succ i =>
          rw [show off + (i + 1) = off + 1 + i by omega, hin i (by simpa using hi)]; simp
      · rw [hout a (by simp at ha; omega)]
        exact Mem.byteAt_write_other _ (by simp at ha; omega) _
      · rw [hkeys]; exact Mem.keys_write _ _ _
      · rw [hback]; exact Mem.backed_write _ _ _ _
    · have := h 0 (by simp); simp_all

/-- The first offset of a run that does not take a write stops it there: earlier bytes are written, later ones are not, and only the fault record
changes besides (41_blockchain.md R139). -/
theorem State.writeBytes_fault {s : State} {off k : Nat} {bytes : List Byte} (hk : k < bytes.length)
    (h : ∀ i < k, s.writable (off + i) = true) (hu : s.writable (off + k) = false) :
    ∃ m, s.writeBytes off bytes = .error ((s.setMem m).raise .invalidStreamWrite (BitVec.ofNat 32 (off + k))) ∧
      (∀ i < k, m.byteAt (off + i) = bytes[i]?) ∧
      (∀ a, a < off ∨ off + k ≤ a → m.byteAt a = s.mem.byteAt a) ∧
      m.map (·.1) = s.mem.map (·.1) ∧ ∀ a, (m.byteAt a).isSome = (s.mem.byteAt a).isSome := by
  induction bytes generalizing s off k with
  | nil => simp at hk
  | cons b bytes ih =>
    rcases s.memWrite_cases off b with ⟨hw, hm⟩ | ⟨hur, hm⟩
    · cases k with
      | zero => simp_all
      | succ k =>
        have hcongr := @State.writable_congr s (s.setMem (s.mem.write off b))
          (fun a => Mem.backed_write s.mem off a b) rfl
        obtain ⟨m, hr, hin, hout, hkeys, hback⟩ := @ih (s.setMem (s.mem.write off b)) (off + 1) k (by simpa using hk)
          (fun i hi => by rw [hcongr, show off + 1 + i = off + (i + 1) by omega]; exact h (i + 1) (by omega))
          (by rw [hcongr, show off + 1 + k = off + (k + 1) by omega]; exact hu)
        refine ⟨m, ?_, fun i hi => ?_, fun a ha => ?_, ?_, fun a => ?_⟩
        · simp [State.writeBytes, hm, hr, show off + 1 + k = off + (k + 1) by omega]
        · cases i with
          | zero =>
            rw [hout _ (by omega)]
            simpa using Mem.byteAt_write_same (State.readable_of_writable hw) b
          | succ i =>
            rw [show off + (i + 1) = off + 1 + i by omega, hin i (by omega)]; simp
        · rw [hout a (by omega)]
          exact Mem.byteAt_write_other _ (by omega) _
        · rw [hkeys]; exact Mem.keys_write _ _ _
        · rw [hback]; exact Mem.backed_write _ _ _ _
    · cases k with
      | zero => exact ⟨s.mem, by simp [State.writeBytes, hm, State.setMem]⟩
      | succ k => have := h 0 (by omega); simp_all

end Sys2Proof.Machine
end

