-- ==== Sys2Proof/Laws/Blocks.lean ====
section
/-! SUPPORT. One block of `ENC`, `DEC` and `CRCSCAN` (41_blockchain.md R136, R137, R139; 42_checksum.md R153): what it does when every offset
takes it, where a fault leaves it, and everything it can do. -/

namespace Sys2Proof.Machine

/-- Memory changed at most at `off .. off+n-1`, with the same offsets listed and backed. -/
structure Mem.ChangedIn (m m' : Mem) (off n : Nat) : Prop where
  outside : ∀ a, a < off ∨ off + n ≤ a → m'.byteAt a = m.byteAt a
  keys : m'.map (·.1) = m.map (·.1)
  backed : ∀ a, (m'.byteAt a).isSome = (m.byteAt a).isSome

theorem Mem.ChangedIn.refl (m : Mem) (off n : Nat) : m.ChangedIn m off n := ⟨fun _ _ => rfl, rfl, fun _ => rfl⟩

theorem Mem.ChangedIn.wf {m m' : Mem} {off n : Nat} (h : m.ChangedIn m' off n) (hw : m.wf) : m'.wf := by
  rw [Mem.wf_iff_keys] at *; rwa [h.keys]

/-- Everything a run of byte writes can do. -/
theorem State.writeBytes_cases (s : State) (off : Nat) (bytes : List Byte) :
    (∃ m, s.writeBytes off bytes = .ok (s.setMem m) ∧ s.mem.ChangedIn m off bytes.length) ∨
    (∃ m k, k < bytes.length ∧
      s.writeBytes off bytes = .error ((s.setMem m).raise .invalidStreamWrite (BitVec.ofNat 32 (off + k))) ∧
      s.mem.ChangedIn m off bytes.length) := by
  by_cases hall : ∃ k, k < bytes.length ∧ s.writable (off + k) = false
  · right
    have hmin := Nat.find_spec hall
    obtain ⟨m, hr, -, hout, hkeys, hback⟩ := @State.writeBytes_fault s off (Nat.find hall) bytes hmin.1
      (fun i hi => by have := Nat.find_min hall hi; have hin : i < bytes.length := by omega
                      simpa [hin] using this) hmin.2
    exact ⟨m, _, hmin.1, hr, ⟨fun a ha => hout a (by omega), hkeys, hback⟩⟩
  · left
    push Not at hall
    obtain ⟨m, hr, -, hout, hkeys, hback⟩ := @State.writeBytes_ok s off bytes fun i hi => by simpa using hall i hi
    exact ⟨m, hr, hout, hkeys, hback⟩

/-! The xor of two byte strings. -/

@[simp] theorem xorBytes_length (a k : List Byte) : (xorBytes a k).length = min a.length k.length := by
  simp [xorBytes]

theorem xorBytes_getElem? {a k : List Byte} {i : Nat} {x y : Byte} (hx : a[i]? = some x) (hy : k[i]? = some y) :
    (xorBytes a k)[i]? = some (x ^^^ y) := by
  simp [xorBytes, List.getElem?_zipWith, hx, hy]

/-! The chain update. -/

/-- The chain update writes the keystream, the CRC when coupled, and nothing else. -/
theorem chain_eq (c : Bool) (ct : List Byte) (s : State) :
    chain c ct s = { s with ks := ct, crc := if c then crcFoldBytes s.crc ct else s.crc } := by
  cases c <;> rfl

@[simp] theorem chain_bs (c : Bool) (ct : List Byte) (s : State) : (chain c ct s).bs = s.bs := by
  cases c <;> rfl
@[simp] theorem chain_pwMax (c : Bool) (ct : List Byte) (s : State) : (chain c ct s).pwMax = s.pwMax := by
  cases c <;> rfl
@[simp] theorem chain_hexCase (c : Bool) (ct : List Byte) (s : State) : (chain c ct s).hexCase = s.hexCase := by
  cases c <;> rfl
@[simp] theorem chain_ks (c : Bool) (ct : List Byte) (s : State) : (chain c ct s).ks = ct := by
  cases c <;> rfl
@[simp] theorem chain_pw (c : Bool) (ct : List Byte) (s : State) : (chain c ct s).pw = s.pw := by
  cases c <;> rfl
@[simp] theorem chain_failed (c : Bool) (ct : List Byte) (s : State) : (chain c ct s).failed = s.failed := by
  cases c <;> rfl
@[simp] theorem chain_cause (c : Bool) (ct : List Byte) (s : State) : (chain c ct s).cause = s.cause := by
  cases c <;> rfl
@[simp] theorem chain_pass (c : Bool) (ct : List Byte) (s : State) : (chain c ct s).pass = s.pass := by
  cases c <;> rfl
@[simp] theorem chain_blkidx (c : Bool) (ct : List Byte) (s : State) : (chain c ct s).blkidx = s.blkidx := by
  cases c <;> rfl
@[simp] theorem chain_faddr (c : Bool) (ct : List Byte) (s : State) : (chain c ct s).faddr = s.faddr := by
  cases c <;> rfl
@[simp] theorem chain_plen (c : Bool) (ct : List Byte) (s : State) : (chain c ct s).plen = s.plen := by
  cases c <;> rfl
@[simp] theorem chain_bcnt (c : Bool) (ct : List Byte) (s : State) : (chain c ct s).bcnt = s.bcnt := by
  cases c <;> rfl
@[simp] theorem chain_crc (c : Bool) (ct : List Byte) (s : State) : (chain c ct s).crc = if c then crcFoldBytes s.crc ct else s.crc := by
  cases c <;> rfl
@[simp] theorem chain_data (c : Bool) (ct : List Byte) (s : State) : (chain c ct s).data = s.data := by
  cases c <;> rfl
@[simp] theorem chain_mem (c : Bool) (ct : List Byte) (s : State) : (chain c ct s).mem = s.mem := by
  cases c <;> rfl
@[simp] theorem chain_readOnly (c : Bool) (ct : List Byte) (s : State) : (chain c ct s).readOnly = s.readOnly := by
  cases c <;> rfl
@[simp] theorem chain_host (c : Bool) (ct : List Byte) (s : State) : (chain c ct s).host = s.host := by
  cases c <;> rfl
@[simp] theorem chain_rdata (c : Bool) (ct : List Byte) (s : State) : (chain c ct s).rdata = s.rdata := by
  cases c <;> rfl

/-! One block when every offset takes it. -/

/-- `enc_block` on a writable block with a ready keystream (41_blockchain.md R136). -/
theorem encBlock_ok {s : State} {off : Nat} (c : Bool) (hks : s.ks.length = s.bs)
    (hw : ∀ i < s.bs, s.writable (off + i) = true) :
    ∃ m ct, encBlock c off s = .ok (chain c ct (s.setMem m)) ∧ ct.length = s.bs ∧
      (∀ i < s.bs, ∃ p k, s.mem.byteAt (off + i) = some p ∧ s.ks[i]? = some k ∧ ct[i]? = some (p ^^^ k)) ∧
      (∀ i < s.bs, m.byteAt (off + i) = ct[i]?) ∧ s.mem.ChangedIn m off s.bs := by
  obtain ⟨pt, hr, hl, hb⟩ := State.readBytes_ok fun i hi => State.readable_of_writable (hw i hi)
  have hct : (xorBytes pt s.ks).length = s.bs := by simp [hl, hks]
  obtain ⟨m, hm, hin, hout, hkeys, hback⟩ :=
    @State.writeBytes_ok s off (xorBytes pt s.ks) fun i hi => hw i (by omega)
  refine ⟨m, xorBytes pt s.ks, by simp [encBlock, hr, hm, State.flush], hct, fun i hi => ?_,
    fun i hi => hin i (by omega), ⟨fun a ha => hout a (by omega), hkeys, hback⟩⟩
  have hp : pt[i]? = some pt[i] := List.getElem?_eq_getElem (by omega)
  have hk : s.ks[i]? = some s.ks[i] := List.getElem?_eq_getElem (by omega)
  exact ⟨_, _, by rw [← hb i hi, hp], hk, xorBytes_getElem? hp hk⟩

/-- `dec_block` on a writable block with a ready keystream (41_blockchain.md R137). -/
theorem decBlock_ok {s : State} {off : Nat} (c : Bool) (hks : s.ks.length = s.bs)
    (hw : ∀ i < s.bs, s.writable (off + i) = true) :
    ∃ m ct, decBlock c off s = .ok (chain c ct (s.setMem m)) ∧ ct.length = s.bs ∧
      (∀ i < s.bs, ct[i]? = s.mem.byteAt (off + i)) ∧
      (∀ i < s.bs, ∃ x k, s.mem.byteAt (off + i) = some x ∧ s.ks[i]? = some k ∧ m.byteAt (off + i) = some (x ^^^ k)) ∧
      s.mem.ChangedIn m off s.bs := by
  obtain ⟨ct, hr, hl, hb⟩ := State.readBytes_ok fun i hi => State.readable_of_writable (hw i hi)
  have hpt : (xorBytes ct s.ks).length = s.bs := by simp [hl, hks]
  obtain ⟨m, hm, hin, hout, hkeys, hback⟩ :=
    @State.writeBytes_ok s off (xorBytes ct s.ks) fun i hi => hw i (by omega)
  refine ⟨m, ct, by simp [decBlock, hr, hm, State.flush], hl, hb, fun i hi => ?_,
    ⟨fun a ha => hout a (by omega), hkeys, hback⟩⟩
  have hp : ct[i]? = some ct[i] := List.getElem?_eq_getElem (by omega)
  have hk : s.ks[i]? = some s.ks[i] := List.getElem?_eq_getElem (by omega)
  exact ⟨_, _, by rw [← hb i hi, hp], hk, by rw [hin i (by omega), xorBytes_getElem? hp hk]⟩

/-- `scan_block` on a readable block (42_checksum.md R153). -/
theorem scanBlock_ok {s : State} {off : Nat} (hr : ∀ i < s.bs, s.readable (off + i) = true) :
    ∃ bytes, scanBlock off s = .ok (s.setCrc (crcFoldBytes s.crc bytes)) ∧ bytes.length = s.bs ∧
      ∀ i < s.bs, bytes[i]? = s.mem.byteAt (off + i) := by
  obtain ⟨bytes, hb, hl, hi⟩ := State.readBytes_ok hr
  exact ⟨bytes, by simp [scanBlock, hb], hl, hi⟩

/-! A read fault: nothing of the block is written (41_blockchain.md R139). -/

section ReadFault
variable {s : State} {off k : Nat} (hk : k < s.bs) (h : ∀ i < k, s.readable (off + i) = true)
  (hu : s.readable (off + k) = false)
include hk h hu

theorem encBlock_readFault (c : Bool) :
    encBlock c off s = .error (s.raise .invalidStreamRead (BitVec.ofNat 32 (off + k))) := by
  simp [encBlock, State.readBytes_fault hk h hu]

theorem decBlock_readFault (c : Bool) :
    decBlock c off s = .error (s.raise .invalidStreamRead (BitVec.ofNat 32 (off + k))) := by
  simp [decBlock, State.readBytes_fault hk h hu]

theorem scanBlock_readFault :
    scanBlock off s = .error (s.raise .invalidStreamRead (BitVec.ofNat 32 (off + k))) := by
  simp [scanBlock, State.readBytes_fault hk h hu]

end ReadFault

/-! A write fault: the block was read whole, the bytes before the faulting offset are written (41_blockchain.md R139). -/

section WriteFault
variable {s : State} {off k : Nat} (hks : s.ks.length = s.bs) (hk : k < s.bs)
  (hr : ∀ i < s.bs, s.readable (off + i) = true) (hw : ∀ i < k, s.writable (off + i) = true)
  (hu : s.writable (off + k) = false)
include hks hk hr hw hu

/-- Both directions read the block and write it xor the keystream, so they stop alike. -/
theorem State.xorBlock_writeFault : ∃ bytes m, s.readBytes off s.bs = .ok bytes ∧
    s.writeBytes off (xorBytes bytes s.ks) = .error ((s.setMem m).raise .invalidStreamWrite (BitVec.ofNat 32 (off + k))) ∧
    (∀ l < k, ∃ p q, s.mem.byteAt (off + l) = some p ∧ s.ks[l]? = some q ∧ m.byteAt (off + l) = some (p ^^^ q)) ∧
    ∀ a, a < off ∨ off + k ≤ a → m.byteAt a = s.mem.byteAt a := by
  obtain ⟨bytes, hb, hl, hi⟩ := State.readBytes_ok hr
  have hx : (xorBytes bytes s.ks).length = s.bs := by simp [hl, hks]
  obtain ⟨m, hm, hin, hout, -, -⟩ := @State.writeBytes_fault s off k (xorBytes bytes s.ks) (by omega) hw hu
  refine ⟨bytes, m, hb, hm, fun l hlk => ?_, hout⟩
  have hp : bytes[l]? = some bytes[l] := List.getElem?_eq_getElem (by omega)
  have hq : s.ks[l]? = some s.ks[l] := List.getElem?_eq_getElem (by omega)
  exact ⟨_, _, by rw [← hi l (by omega), hp], hq, by rw [hin l hlk, xorBytes_getElem? hp hq]⟩

theorem encBlock_writeFault (c : Bool) : ∃ m,
    encBlock c off s = .error ((s.setMem m).raise .invalidStreamWrite (BitVec.ofNat 32 (off + k))) ∧
    (∀ l < k, ∃ p q, s.mem.byteAt (off + l) = some p ∧ s.ks[l]? = some q ∧ m.byteAt (off + l) = some (p ^^^ q)) ∧
    ∀ a, a < off ∨ off + k ≤ a → m.byteAt a = s.mem.byteAt a := by
  obtain ⟨bytes, m, hb, hm, h⟩ := State.xorBlock_writeFault hks hk hr hw hu
  exact ⟨m, by simp [encBlock, hb, hm], h⟩

theorem decBlock_writeFault (c : Bool) : ∃ m,
    decBlock c off s = .error ((s.setMem m).raise .invalidStreamWrite (BitVec.ofNat 32 (off + k))) ∧
    (∀ l < k, ∃ p q, s.mem.byteAt (off + l) = some p ∧ s.ks[l]? = some q ∧ m.byteAt (off + l) = some (p ^^^ q)) ∧
    ∀ a, a < off ∨ off + k ≤ a → m.byteAt a = s.mem.byteAt a := by
  obtain ⟨bytes, m, hb, hm, h⟩ := State.xorBlock_writeFault hks hk hr hw hu
  exact ⟨m, by simp [decBlock, hb, hm], h⟩

end WriteFault

/-! Everything one block can do, in every state. -/

/-- `enc_block` changes memory inside the block and, if it completes, the keystream and the CRC; if it stops, it has raised a payload fault. -/
theorem encBlock_cases (c : Bool) (off : Nat) (s : State) :
    (∃ m ct, encBlock c off s = .ok (chain c ct (s.setMem m)) ∧ ct.length = min s.bs s.ks.length ∧
      s.mem.ChangedIn m off s.bs) ∨
    (∃ m cause a, (cause = .invalidStreamRead ∨ cause = .invalidStreamWrite) ∧
      encBlock c off s = .error ((s.setMem m).raise cause a) ∧ s.mem.ChangedIn m off s.bs) := by
  unfold encBlock
  cases hr : s.readBytes off s.bs with
  | error stopped =>
    obtain ⟨k, -, -, -, rfl⟩ := State.readBytes_eq_error hr
    exact .inr ⟨s.mem, _, _, .inl rfl, rfl, .refl _ _ _⟩
  | ok pt =>
    have hl := (State.readBytes_eq_ok hr).1
    have hle : (xorBytes pt s.ks).length ≤ s.bs := by simp [hl]
    rcases s.writeBytes_cases off (xorBytes pt s.ks) with ⟨m, hm, hch⟩ | ⟨m, k, -, hm, hch⟩
    · exact .inl ⟨m, xorBytes pt s.ks, by simp [hm, State.flush], by simp [hl], fun a ha => hch.outside a (by omega), hch.keys, hch.backed⟩
    · exact .inr ⟨m, _, BitVec.ofNat 32 (off + k), .inr rfl, by simp only [hm], fun a ha => hch.outside a (by omega), hch.keys, hch.backed⟩

/-- `dec_block`, likewise. -/
theorem decBlock_cases (c : Bool) (off : Nat) (s : State) :
    (∃ m ct, decBlock c off s = .ok (chain c ct (s.setMem m)) ∧ ct.length = s.bs ∧ s.mem.ChangedIn m off s.bs) ∨
    (∃ m cause a, (cause = .invalidStreamRead ∨ cause = .invalidStreamWrite) ∧
      decBlock c off s = .error ((s.setMem m).raise cause a) ∧ s.mem.ChangedIn m off s.bs) := by
  unfold decBlock
  cases hr : s.readBytes off s.bs with
  | error stopped =>
    obtain ⟨k, -, -, -, rfl⟩ := State.readBytes_eq_error hr
    exact .inr ⟨s.mem, _, _, .inl rfl, rfl, .refl _ _ _⟩
  | ok ct =>
    have hl := (State.readBytes_eq_ok hr).1
    have hle : (xorBytes ct s.ks).length ≤ s.bs := by simp [hl]
    rcases s.writeBytes_cases off (xorBytes ct s.ks) with ⟨m, hm, hch⟩ | ⟨m, k, -, hm, hch⟩
    · exact .inl ⟨m, ct, by simp [hm, State.flush], hl, fun a ha => hch.outside a (by omega), hch.keys, hch.backed⟩
    · exact .inr ⟨m, _, BitVec.ofNat 32 (off + k), .inr rfl, by simp only [hm], fun a ha => hch.outside a (by omega), hch.keys, hch.backed⟩

/-- `scan_block` changes the CRC alone, or raises `InvalidStreamRead`. -/
theorem scanBlock_cases (off : Nat) (s : State) :
    (∃ crc, scanBlock off s = .ok (s.setCrc crc)) ∨
    (∃ a, scanBlock off s = .error (s.raise .invalidStreamRead a)) := by
  unfold scanBlock
  cases hr : s.readBytes off s.bs with
  | error stopped =>
    obtain ⟨k, -, -, -, rfl⟩ := State.readBytes_eq_error hr
    exact .inr ⟨_, rfl⟩
  | ok bytes => exact .inl ⟨_, rfl⟩

end Sys2Proof.Machine
end

