-- ==== Sys2Proof/Laws/Traversal.lean ====
section
/-! SUPPORT. The traversal of both windows (41_blockchain.md R140, R141; 42_checksum.md R153), its induction packaged once: what every block keeps
holds of the result, what every block establishes in turn holds at the end, and a fault in a block leaves the traversal there. -/

namespace Sys2Proof.Machine

variable {block : Nat → State → Except State State} {offset : Nat → Nat}

/-! One pass. -/

/-- A property that every block of the pass keeps, whether it completes or stops, holds of the pass's result. -/
theorem runPass_keeps {P : State → Prop} {index n : Nat} {s : State} (hs : P s)
    (hok : ∀ j u v, index ≤ j → j < index + n → P u → block (offset j) (u.setBlkidx (BitVec.ofNat 8 j)) = .ok v → P v)
    (herr : ∀ j u v, index ≤ j → j < index + n → P u →
      block (offset j) (u.setBlkidx (BitVec.ofNat 8 j)) = .error v → P v) :
    (∃ t, runPass block offset index n s = .ok t ∧ P t) ∨ (∃ t, runPass block offset index n s = .error t ∧ P t) := by
  induction n generalizing index s with
  | zero => exact .inl ⟨s, rfl, hs⟩
  | succ n ih =>
    unfold runPass
    cases hb : block (offset index) (s.setBlkidx (BitVec.ofNat 8 index)) with
    | error v => exact .inr ⟨v, rfl, herr index s v (Nat.le_refl _) (by omega) hs hb⟩
    | ok v =>
      exact ih (hok index s v (Nat.le_refl _) (by omega) hs hb)
        (fun j u w h₁ h₂ => hok j u w (by omega) (by omega)) fun j u w h₁ h₂ => herr j u w (by omega) (by omega)

/-- If block `j` of the pass takes `P j` to `P (j+1)`, the pass completes and takes the first to the last. -/
theorem runPass_ok {P : Nat → State → Prop} {index n : Nat} {s : State} (hs : P index s)
    (h : ∀ j u, index ≤ j → j < index + n → P j u →
      ∃ v, block (offset j) (u.setBlkidx (BitVec.ofNat 8 j)) = .ok v ∧ P (j + 1) v) :
    ∃ t, runPass block offset index n s = .ok t ∧ P (index + n) t := by
  induction n generalizing index s with
  | zero => exact ⟨s, rfl, hs⟩
  | succ n ih =>
    obtain ⟨v, hb, hv⟩ := h index s (Nat.le_refl _) (by omega) hs
    obtain ⟨t, ht, hp⟩ := ih hv fun j u h₁ h₂ => h j u (by omega) (by omega)
    exact ⟨t, by simp [runPass, hb, ht], by rwa [show index + (n + 1) = index + 1 + n by omega]⟩

/-- A pass whose blocks before block `k` complete stops at block `k` if that block stops. -/
theorem runPass_fault {P : Nat → State → Prop} {Q : State → Prop} {index n k : Nat} {s : State} (hk : k < n) (hs : P index s)
    (h : ∀ j u, index ≤ j → j < index + k → P j u →
      ∃ v, block (offset j) (u.setBlkidx (BitVec.ofNat 8 j)) = .ok v ∧ P (j + 1) v)
    (hf : ∀ u, P (index + k) u →
      ∃ v, block (offset (index + k)) (u.setBlkidx (BitVec.ofNat 8 (index + k))) = .error v ∧ Q v) :
    ∃ t, runPass block offset index n s = .error t ∧ Q t := by
  induction n generalizing index k s with
  | zero => omega
  | succ n ih =>
    cases k with
    | zero => obtain ⟨v, hb, hv⟩ := hf s hs; exact ⟨v, by simp at hb; simp [runPass, hb], hv⟩
    | succ k =>
      obtain ⟨v, hb, hv⟩ := h index s (Nat.le_refl _) (by omega) hs
      obtain ⟨t, ht, hq⟩ := ih (k := k) (by omega) hv (fun j u h₁ h₂ => h j u (by omega) (by omega))
        fun u hu => by rw [show index + 1 + k = index + (k + 1) by omega] at *; exact hf u hu
      exact ⟨t, by simp [runPass, hb, ht], hq⟩

/-- Two runs of a pass that every block keeps related end alike and related. -/
theorem runPass_related {R : State → State → Prop} {block' : Nat → State → Except State State} {index n : Nat} {s s' : State}
    (hs : R s s')
    (h : ∀ j u u', index ≤ j → j < index + n → R u u' →
      (∃ v v', block (offset j) (u.setBlkidx (BitVec.ofNat 8 j)) = .ok v ∧
        block' (offset j) (u'.setBlkidx (BitVec.ofNat 8 j)) = .ok v' ∧ R v v') ∨
      (∃ v v', block (offset j) (u.setBlkidx (BitVec.ofNat 8 j)) = .error v ∧
        block' (offset j) (u'.setBlkidx (BitVec.ofNat 8 j)) = .error v' ∧ R v v')) :
    (∃ t t', runPass block offset index n s = .ok t ∧ runPass block' offset index n s' = .ok t' ∧ R t t') ∨
    (∃ t t', runPass block offset index n s = .error t ∧ runPass block' offset index n s' = .error t' ∧ R t t') := by
  induction n generalizing index s s' with
  | zero => exact .inl ⟨s, s', rfl, rfl, hs⟩
  | succ n ih =>
    rcases h index s s' (Nat.le_refl _) (by omega) hs with ⟨v, v', hb, hb', hv⟩ | ⟨v, v', hb, hb', hv⟩
    · simp only [runPass, hb, hb']
      exact ih hv fun j u u' h₁ h₂ => h j u u' (by omega) (by omega)
    · exact .inr ⟨v, v', by simp [runPass, hb], by simp [runPass, hb'], hv⟩

/-! The traversal, its blocks numbered as `State.blockOffset` numbers them. -/

/-- The value of `BLKIDX` while block `j` of the traversal runs (10_state.md R31). -/
def State.blockIndex (s : State) (j : Nat) : Nat := if j < s.bcnt.toNat then j else j - s.bcnt.toNat

/-- The value of `PASS` while block `j` of the traversal runs (10_state.md R30). -/
def State.blockPass (s : State) (j : Nat) : Pass := if j < s.bcnt.toNat then .top else .bottom

theorem State.blockOffset_top {s : State} {j : Nat} (h : j < s.bcnt.toNat) : s.blockOffset j = topOffset s.bs j := by
  simp [State.blockOffset, h]

theorem State.blockOffset_bottom (s : State) (j : Nat) :
    s.blockOffset (s.bcnt.toNat + j) = bottomOffset s.bs s.plen.toNat j := by
  simp [State.blockOffset]

/-- A property kept by every block, completing or stopping, and by the writes of `PASS`, holds of the traversal's result. -/
theorem traverseWindows_keeps {P : State → Prop} {s : State} (hs : P s) (hpass : ∀ u p, P u → P (u.setPass p))
    (hok : ∀ j u v, j < s.blocks → P u →
      block (s.blockOffset j) (u.setBlkidx (BitVec.ofNat 8 (s.blockIndex j))) = .ok v → P v)
    (herr : ∀ j u v, j < s.blocks → P u →
      block (s.blockOffset j) (u.setBlkidx (BitVec.ofNat 8 (s.blockIndex j))) = .error v → P v) :
    P (traverseWindows block s) := by
  unfold State.blocks at hok herr
  unfold traverseWindows
  rcases runPass_keeps (block := block) (offset := topOffset s.bs) (index := 0) (n := s.bcnt.toNat) (hpass s .top hs)
    (fun j u v _ hj hu hb => hok j u v (by omega) hu
      (by rwa [State.blockOffset_top (by omega), State.blockIndex, if_pos (by omega)]))
    (fun j u v _ hj hu hb => herr j u v (by omega) hu
      (by rwa [State.blockOffset_top (by omega), State.blockIndex, if_pos (by omega)])) with ⟨t, ht, hp⟩ | ⟨t, ht, hp⟩
  · rw [ht]
    rcases runPass_keeps (block := block) (offset := bottomOffset s.bs s.plen.toNat) (index := 0) (n := s.bcnt.toNat)
      (hpass t .bottom hp)
      (fun j u v _ hj hu hb => hok (s.bcnt.toNat + j) u v (by omega) hu
        (by rwa [State.blockOffset_bottom, State.blockIndex, if_neg (by omega), Nat.add_sub_cancel_left]))
      (fun j u v _ hj hu hb => herr (s.bcnt.toNat + j) u v (by omega) hu
        (by rwa [State.blockOffset_bottom, State.blockIndex, if_neg (by omega), Nat.add_sub_cancel_left])) with
      ⟨w, hw, hp'⟩ | ⟨w, hw, hp'⟩
    · simp only [hw]; exact hpass _ _ hp'
    · simpa only [hw] using hp'
  · simpa only [ht] using hp

theorem State.blockPass_top {s : State} {j : Nat} (h : j < s.bcnt.toNat) : s.blockPass j = .top := by
  simp [State.blockPass, h]

theorem State.blockPass_bottom (s : State) (j : Nat) : s.blockPass (s.bcnt.toNat + j) = .bottom := by
  simp [State.blockPass]

theorem State.blockIndex_top {s : State} {j : Nat} (h : j < s.bcnt.toNat) : s.blockIndex j = j := by
  simp [State.blockIndex, h]

theorem State.blockIndex_bottom (s : State) (j : Nat) : s.blockIndex (s.bcnt.toNat + j) = j := by
  simp [State.blockIndex]

/-- If block `j` of the traversal takes `P pass j` to `P pass (j+1)`, `pass` being the pass the block is in, then the traversal completes, `PASS` reads
`DONE`, and the last property holds. -/
theorem traverseWindows_ok {P : Pass → Nat → State → Prop} {s : State} (hs : P .top 0 (s.setPass .top))
    (hmid : ∀ u, P .top s.bcnt.toNat u → P .bottom s.bcnt.toNat (u.setPass .bottom))
    (h : ∀ j u, j < s.blocks → P (s.blockPass j) j u →
      ∃ v, block (s.blockOffset j) (u.setBlkidx (BitVec.ofNat 8 (s.blockIndex j))) = .ok v ∧ P (s.blockPass j) (j + 1) v) :
    ∃ t, traverseWindows block s = t.setPass .done ∧ P .bottom s.blocks t := by
  unfold State.blocks at *
  obtain ⟨t, ht, hp⟩ := runPass_ok (P := P .top) (block := block) (offset := topOffset s.bs) (index := 0)
    (n := s.bcnt.toNat) hs fun j u _ hj hu => by
      have hj : j < s.bcnt.toNat := by omega
      have := h j u (by omega) (by rwa [State.blockPass_top hj])
      rwa [State.blockOffset_top hj, State.blockIndex_top hj, State.blockPass_top hj] at this
  rw [Nat.zero_add] at hp
  obtain ⟨w, hw, hp'⟩ := runPass_ok (P := fun j u => P .bottom (s.bcnt.toNat + j) u) (block := block)
    (offset := bottomOffset s.bs s.plen.toNat) (index := 0) (n := s.bcnt.toNat) (hmid t hp) fun j u _ hj hu => by
      have := h (s.bcnt.toNat + j) u (by omega) (by rwa [State.blockPass_bottom])
      rwa [State.blockOffset_bottom, State.blockIndex_bottom, State.blockPass_bottom] at this
  exact ⟨w, by simp only [traverseWindows, ht, hw], by simpa only [Nat.zero_add, Nat.two_mul] using hp'⟩

/-- If the blocks before block `k` complete and block `k` stops, the traversal stops there. -/
theorem traverseWindows_fault {P : Pass → Nat → State → Prop} {Q : State → Prop} {s : State} {k : Nat} (hk : k < s.blocks)
    (hs : P .top 0 (s.setPass .top)) (hmid : ∀ u, P .top s.bcnt.toNat u → P .bottom s.bcnt.toNat (u.setPass .bottom))
    (h : ∀ j u, j < k → P (s.blockPass j) j u →
      ∃ v, block (s.blockOffset j) (u.setBlkidx (BitVec.ofNat 8 (s.blockIndex j))) = .ok v ∧ P (s.blockPass j) (j + 1) v)
    (hf : ∀ u, P (s.blockPass k) k u →
      ∃ v, block (s.blockOffset k) (u.setBlkidx (BitVec.ofNat 8 (s.blockIndex k))) = .error v ∧ Q v) :
    Q (traverseWindows block s) := by
  unfold State.blocks at hk
  by_cases hkt : k < s.bcnt.toNat
  · obtain ⟨t, ht, hq⟩ := runPass_fault (P := P .top) (block := block) (offset := topOffset s.bs) (index := 0) (k := k)
      (Q := Q) hkt hs
      (fun j u _ hj hu => by
        have hj : j < k := by omega
        have hjt : j < s.bcnt.toNat := by omega
        have := h j u hj (by rwa [State.blockPass_top hjt])
        rwa [State.blockOffset_top hjt, State.blockIndex_top hjt, State.blockPass_top hjt] at this)
      (fun u hu => by
        rw [Nat.zero_add] at hu ⊢
        have := hf u (by rwa [State.blockPass_top hkt])
        rwa [State.blockOffset_top hkt, State.blockIndex_top hkt] at this)
    simpa only [traverseWindows, ht] using hq
  · obtain ⟨k, rfl⟩ := Nat.exists_eq_add_of_le (Nat.le_of_not_lt hkt)
    obtain ⟨t, ht, hp⟩ := runPass_ok (P := P .top) (block := block) (offset := topOffset s.bs) (index := 0)
      (n := s.bcnt.toNat) hs fun j u _ hj hu => by
        have hj : j < s.bcnt.toNat := by omega
        have := h j u (by omega) (by rwa [State.blockPass_top hj])
        rwa [State.blockOffset_top hj, State.blockIndex_top hj, State.blockPass_top hj] at this
    rw [Nat.zero_add] at hp
    obtain ⟨w, hw, hq⟩ := runPass_fault (P := fun j u => P .bottom (s.bcnt.toNat + j) u) (Q := Q) (block := block)
      (offset := bottomOffset s.bs s.plen.toNat) (index := 0) (n := s.bcnt.toNat) (k := k) (by omega) (hmid t hp)
      (fun j u _ hj hu => by
        have := h (s.bcnt.toNat + j) u (by omega) (by rwa [State.blockPass_bottom])
        rwa [State.blockOffset_bottom, State.blockIndex_bottom, State.blockPass_bottom] at this)
      (fun u hu => by
        rw [Nat.zero_add] at hu ⊢
        have := hf u (by rwa [State.blockPass_bottom])
        rwa [State.blockOffset_bottom, State.blockIndex_bottom] at this)
    simpa only [traverseWindows, ht, hw] using hq

/-! Where the blocks lie (20_memory.md R61, 41_blockchain.md R131, R132). -/

/-- Once the size check passed, every block lies in the payload region. -/
theorem State.blockOffset_add_le {s : State} (h : s.Fits) {j : Nat} (hj : j < s.blocks) :
    s.blockOffset j + s.bs ≤ s.plen.toNat := by
  unfold State.blocks at hj
  unfold State.blockOffset topOffset bottomOffset
  split
  · rename_i ht
    calc s.bs * j + s.bs = s.bs * (j + 1) := by ring
      _ ≤ s.bs * s.bcnt.toNat := Nat.mul_le_mul_left _ ht
      _ ≤ _ := h
  · have h₁ : s.bs * (j - s.bcnt.toNat + 1) ≤ s.bs * s.bcnt.toNat := Nat.mul_le_mul_left _ (by omega)
    have h₂ : s.bs ≤ s.bs * (j - s.bcnt.toNat + 1) := Nat.le_mul_of_pos_right _ (by omega)
    have := h; omega

/-- Blocks of non-overlapping windows are pairwise disjoint. -/
theorem State.blocks_disjoint {s : State} (h : s.Disjoint) {i j : Nat} (hi : i < s.blocks) (hj : j < s.blocks) (hne : i ≠ j) :
    s.blockOffset i + s.bs ≤ s.blockOffset j ∨ s.blockOffset j + s.bs ≤ s.blockOffset i := by
  unfold State.blocks at hi hj
  have h₂ : s.bs * s.bcnt.toNat + s.bs * s.bcnt.toNat ≤ s.plen.toNat := by
    have := h; unfold State.Disjoint at this; linarith
  have key : ∀ a b : Nat, a < b → s.bs * a + s.bs ≤ s.bs * b := fun a b hab => by
    calc s.bs * a + s.bs = s.bs * (a + 1) := by ring
      _ ≤ s.bs * b := Nat.mul_le_mul_left _ hab
  have le : ∀ a b : Nat, a ≤ b → s.bs * a ≤ s.bs * b := fun a b hab => Nat.mul_le_mul_left _ hab
  unfold State.blockOffset topOffset bottomOffset
  split <;> split
  · rcases Nat.lt_or_gt_of_ne hne with h | h
    · exact .inl (key _ _ h)
    · exact .inr (key _ _ h)
  · rename_i ht hb
    have := key i s.bcnt.toNat ht
    have := le (j - s.bcnt.toNat + 1) s.bcnt.toNat (by omega)
    left; omega
  · rename_i hb ht
    have := key j s.bcnt.toNat ht
    have := le (i - s.bcnt.toNat + 1) s.bcnt.toNat (by omega)
    right; omega
  · rename_i hbi hbj
    have hi' := le (i - s.bcnt.toNat + 1) s.bcnt.toNat (by omega)
    have hj' := le (j - s.bcnt.toNat + 1) s.bcnt.toNat (by omega)
    rcases Nat.lt_or_gt_of_ne hne with h | h
    · right; have := key (i - s.bcnt.toNat + 1) (j - s.bcnt.toNat + 1) (by omega); omega
    · left; have := key (j - s.bcnt.toNat + 1) (i - s.bcnt.toNat + 1) (by omega); omega

end Sys2Proof.Machine
end

