-- ==== Sys2Proof/Laws/Exec.lean ====
section
/-! SUPPORT. The shape of every command (30_encoding.md R91, 60_exceptions.md R210, R212): it always answers a next state, and outside the Failed
state a command of the shape `command` answers its effect. -/

namespace Sys2Proof.Machine

/-- Outside the Failed state a command has its effect. -/
theorem command_of_running {effect : State → State} {s : State} (h : s.failed = false) :
    command effect s = .next (effect s) := by
  simp [command, h]

/-- In the Failed state it is ignored. -/
theorem command_of_failed {effect : State → State} {s : State} (h : s.failed = true) : command effect s = .next s := by
  simp [command, h]

/-- A command's next state is the state itself, Failed, or its effect, running. -/
theorem command_eq_next {effect : State → State} {s t : State} (h : command effect s = .next t) :
    (s.failed = true ∧ t = s) ∨ (s.failed = false ∧ t = effect s) := by
  cases hf : s.failed
  · rw [command_of_running hf] at h; cases h; exact .inr ⟨rfl, rfl⟩
  · rw [command_of_failed hf] at h; cases h; exact .inl ⟨rfl, rfl⟩

/-- Every command answers a next state: the block's faults are next states (60_exceptions.md R210). -/
theorem exec_next (i : Instr) (s : State) : ∃ t, exec i s = .next t := by
  cases i <;> exact ⟨_, rfl⟩

/-- The size check, as a proposition (41_blockchain.md R134). -/
theorem State.windowTooLarge_eq_false {s : State} : s.windowTooLarge = false ↔ s.Fits := by
  simp [State.windowTooLarge]

theorem State.windowTooLarge_eq_true {s : State} : s.windowTooLarge = true ↔ s.plen.toNat < s.bs * s.bcnt.toNat := by
  simp [State.windowTooLarge]

theorem State.Disjoint.fits {s : State} (h : s.Disjoint) : s.Fits := by
  have h₁ : 2 * s.bs * s.bcnt.toNat = s.bs * s.bcnt.toNat + s.bs * s.bcnt.toNat := by ring
  unfold State.Disjoint at h; unfold State.Fits; omega

/-- A transform whose preconditions hold is its traversal (41_blockchain.md R133 to R135). -/
theorem transform_eq_traverse {block : Nat → State → Except State State} {s : State} (hfit : s.Fits)
    (hks : s.ks.length = s.bs) : transform block s = traverseWindows block s := by
  simp [transform, State.windowTooLarge_eq_false.2 hfit, hks]

/-- Everything a transform can do before its first block (41_blockchain.md R135). -/
theorem transform_cases (block : Nat → State → Except State State) (s : State) :
    transform block s = s.raise .sizeUnderflow 0 ∨ transform block s = s.raise .keystreamLength 0 ∨
      (s.Fits ∧ s.ks.length = s.bs ∧ transform block s = traverseWindows block s) := by
  unfold transform
  split
  · exact .inl rfl
  · rename_i h
    split
    · exact .inr (.inl rfl)
    · rename_i h'
      exact .inr (.inr ⟨State.windowTooLarge_eq_false.1 (by simpa using h), by simpa using h', rfl⟩)

/-- An offset inside block `j` is in the windows. -/
theorem State.inWindows_of_block {s : State} {j i : Nat} (hj : j < s.blocks) (hi : i < s.bs) :
    s.InWindows (s.blockOffset j + i) := ⟨j, hj, by unfold State.InBlock; omega⟩

/-- Block by block, byte by byte: the engine can write both windows. -/
theorem State.windowsWritable_of_blocks {s : State}
    (h : ∀ j < s.blocks, ∀ i < s.bs, s.writable (s.blockOffset j + i) = true) : s.WindowsWritable := by
  rintro a ⟨j, hj, hle, hlt⟩
  have := h j hj (a - s.blockOffset j) (by omega)
  rwa [Nat.add_sub_cancel' hle] at this

/-- Block by block, byte by byte: the engine can read both windows. -/
theorem State.windowsReadable_of_blocks {s : State}
    (h : ∀ j < s.blocks, ∀ i < s.bs, s.readable (s.blockOffset j + i) = true) : s.WindowsReadable := by
  rintro a ⟨j, hj, hle, hlt⟩
  have := h j hj (a - s.blockOffset j) (by omega)
  rwa [Nat.add_sub_cancel' hle] at this

end Sys2Proof.Machine
end

