-- ==== Sys2Proof/Laws/Windows.lean ====
section
/-! SUPPORT. The bytes of the windows in traversal order (42_checksum.md R153) and the fold of byte strings. -/

namespace Sys2Proof.Machine

theorem range_filterMap_getElem? {α : Type} (l : List α) (n : Nat) :
    (List.range n).filterMap (fun i => l[i]?) = l.take n := by
  induction n with
  | zero => simp
  | succ n ih => rw [List.range_succ, List.filterMap_append, ih, List.take_add_one]; cases h : l[n]? <;> simp [h]

/-- A list of the right length whose bytes are those behind the offsets is the bytes at them. -/
theorem Mem.bytesAt_eq {m : Mem} {off n : Nat} {bytes : List Byte} (hl : bytes.length = n)
    (h : ∀ i < n, bytes[i]? = m.byteAt (off + i)) : m.bytesAt off n = bytes := by
  have : m.bytesAt off n = (List.range n).filterMap fun i => bytes[i]? :=
    List.filterMap_congr fun i hi => (h i (List.mem_range.1 hi)).symm
  rw [this, range_filterMap_getElem?, ← hl, List.take_length]

theorem Mem.bytesAt_congr {m m' : Mem} {off n : Nat} (h : ∀ i < n, m'.byteAt (off + i) = m.byteAt (off + i)) :
    m'.bytesAt off n = m.bytesAt off n :=
  List.filterMap_congr fun i hi => h i (List.mem_range.1 hi)

theorem State.blockBytes_zero (s : State) (m : Mem) : s.blockBytes m 0 = [] := rfl

theorem State.blockBytes_succ (s : State) (m : Mem) (j : Nat) :
    s.blockBytes m (j + 1) = s.blockBytes m j ++ m.bytesAt (s.blockOffset j) s.bs := by
  simp [State.blockBytes, List.range_succ]

theorem State.blockBytes_congr {s : State} {m m' : Mem} {n : Nat}
    (h : ∀ j < n, ∀ i < s.bs, m'.byteAt (s.blockOffset j + i) = m.byteAt (s.blockOffset j + i)) :
    s.blockBytes m' n = s.blockBytes m n := by
  induction n with
  | zero => rfl
  | succ n ih =>
    rw [State.blockBytes_succ, State.blockBytes_succ, ih fun j hj => h j (by omega),
      Mem.bytesAt_congr (h n (by omega))]

/-- Folding one byte string after another folds their concatenation (42_checksum.md R159 (a)). -/
theorem crcFoldBytes_append (c : Word) (a b : List Byte) : crcFoldBytes c (a ++ b) = crcFoldBytes (crcFoldBytes c a) b :=
  List.foldl_append

theorem crcFoldBytes_nil (c : Word) : crcFoldBytes c [] = c := rfl

/-- The windows of a state depend on `BLOCK_SIZE`, `PLEN` and `BCNT` alone. -/
theorem State.blockOffset_congr {s t : State} (hb : t.bs = s.bs) (hp : t.plen = s.plen) (hn : t.bcnt = s.bcnt) (j : Nat) :
    t.blockOffset j = s.blockOffset j := by
  simp [State.blockOffset, hb, hp, hn]

end Sys2Proof.Machine
end

