-- ==== Sys2Proof/Laws/Chain.lean ====
section
/-! SUPPORT. The recurrence of a transform's blocks (41_blockchain.md R132, R136 to R138): what it keeps, its closed form when the windows do not overlap,
and that one more block continues it. -/

namespace Sys2Proof.Machine

namespace State.Chained

variable {s : State} {enc c : Bool} {n : Nat} {m : Mem} {ks : List Byte} {crc : Word}

theorem ks_length (h : s.Chained enc c n m ks crc) (hks : s.ks.length = s.bs) : ks.length = s.bs := by
  cases h with
  | zero => exact hks
  | succ _ hl _ _ => exact hl

/-- Without coupling the CRC stays. -/
theorem crc_uncoupled (h : s.Chained enc false n m ks crc) : crc = s.crc := by
  induction h with
  | zero => rfl
  | succ _ _ _ _ ih => simpa using ih

/-- A byte outside the blocks done so far is as it was. -/
theorem mem_outside (h : s.Chained enc c n m ks crc) {a : Nat} (ha : ∀ j < n, ¬s.InBlock j a) : m.byteAt a = s.mem.byteAt a := by
  induction h with
  | zero => rfl
  | @succ n _ _ _ _ _ _ _ _ hout ih => rw [hout a (ha n (by omega)), ih fun j hj => ha j (by omega)]

/-- The same offsets are backed. -/
theorem backed (h : s.Chained enc c n m ks crc) (a : Nat) : (m.byteAt a).isSome = (s.mem.byteAt a).isSome := by
  induction h with
  | zero => rfl
  | @succ n _ _ _ _ _ _ _ hbyte hout ih =>
    rw [← ih]
    by_cases ha : s.InBlock n a
    · obtain ⟨i, rfl⟩ := Nat.exists_eq_add_of_le ha.1
      obtain ⟨p, k, hp, -, hm, -⟩ := hbyte i (by have := ha.2; omega)
      rw [hp, hm]; rfl
    · rw [hout a ha]

/-- `ENC` leaves each block's ciphertext both in memory and in the keystream. -/
theorem enc_ks (h : s.Chained true c n m ks crc) (hn : 0 < n) {i : Nat} (hi : i < s.bs) :
    ks[i]? = m.byteAt (s.blockOffset (n - 1) + i) := by
  cases h with
  | zero => omega
  | @succ n _ _ _ _ _ _ _ hbyte _ =>
    obtain ⟨p, k, -, -, hm, hk⟩ := hbyte i hi
    simpa using hk.trans hm.symm

end State.Chained

/-! The closed forms. -/

section ClosedForm
variable {s : State} {c : Bool} {n : Nat} {m m' : Mem} {ks : List Byte} {crc : Word}

/-- The closed form of `ENC` speaks of memory in the blocks done so far only. -/
theorem State.Encoded.congr (h : s.Encoded c n m ks crc)
    (hm : ∀ j < n, ∀ i < s.bs, m'.byteAt (s.blockOffset j + i) = m.byteAt (s.blockOffset j + i)) : s.Encoded c n m' ks crc where
  byte j hj i hi := by
    obtain ⟨p, k, hp, hk, hb⟩ := h.byte j hj i hi
    refine ⟨p, k, hp, ?_, by rw [hm j hj i hi, hb]⟩
    rwa [hm (j - 1) (by omega) i hi]
  ks := by
    rw [h.ks]
    split
    · rfl
    · exact (Mem.bytesAt_congr (hm (n - 1) (by omega))).symm
  crc := by rw [h.crc, State.blockBytes_congr hm]

/-- The closed form of `DEC`, likewise. -/
theorem State.Decoded.congr (h : s.Decoded c n m ks crc)
    (hm : ∀ j < n, ∀ i < s.bs, m'.byteAt (s.blockOffset j + i) = m.byteAt (s.blockOffset j + i)) : s.Decoded c n m' ks crc where
  byte j hj i hi := by
    obtain ⟨x, k, hx, hk, hb⟩ := h.byte j hj i hi
    exact ⟨x, k, hx, hk, by rw [hm j hj i hi, hb]⟩
  ks := h.ks
  crc := h.crc

end ClosedForm

/-! Windows that do not overlap: each block is read and written once. -/

section Disjoint
variable {s : State} {c : Bool} {n : Nat} {m : Mem} {ks : List Byte} {crc : Word} (hd : s.Disjoint)
include hd

/-- An offset inside a block is in no other block. -/
theorem State.not_inBlock {i j l : Nat} (hi : i < s.blocks) (hj : j < s.blocks) (hne : i ≠ j) (hl : l < s.bs) :
    ¬s.InBlock i (s.blockOffset j + l) := by
  have := State.blocks_disjoint hd hi hj hne
  unfold State.InBlock; omega

/-- A block still to come is as it was at the start. -/
theorem State.Chained.mem_ahead {enc : Bool} (h : s.Chained enc c n m ks crc) {j l : Nat} (hnj : n ≤ j) (hj : j < s.blocks)
    (hl : l < s.bs) : m.byteAt (s.blockOffset j + l) = s.mem.byteAt (s.blockOffset j + l) :=
  h.mem_outside fun _ hi => State.not_inBlock hd (by omega) hj (by omega) hl

/-- The closed form of `ENC` (41_blockchain.md R136, R142). -/
theorem State.Chained.encoded (h : s.Chained true c n m ks crc) (hn : n ≤ s.blocks) : s.Encoded c n m ks crc := by
  induction h with
  | zero => exact ⟨by omega, rfl, by simp [State.blockBytes_zero, crcFoldBytes_nil]⟩
  | @succ n m m' ks ks' crc before hl hbyte hout ih =>
    have ih := (ih (by omega)).congr (m' := m') fun j hj i hi => hout _ (State.not_inBlock hd (by omega) (by omega) (by omega) hi)
    have hlast : m'.bytesAt (s.blockOffset n) s.bs = ks' := Mem.bytesAt_eq hl fun i hi => by
      obtain ⟨p, k, -, -, hm, hk⟩ := hbyte i hi
      simpa using hk.trans hm.symm
    refine ⟨fun j hj i hi => ?_, by simp [hlast], ?_⟩
    · by_cases hjn : j < n
      · exact ih.byte j hjn i hi
      · obtain rfl : j = n := by omega
        obtain ⟨p, k, hp, hk, hm, -⟩ := hbyte i hi
        refine ⟨p, k, by rw [← hp, before.mem_ahead hd le_rfl (by omega) hi], ?_, hm⟩
        split
        · subst j; cases before; exact hk
        · rw [hout _ (State.not_inBlock hd (by omega) (by omega) (by omega) hi), ← before.enc_ks (by omega) hi, hk]
    · rw [State.blockBytes_succ, hlast, crcFoldBytes_append, ih.crc]
      cases c <;> rfl

/-- The closed form of `DEC` (41_blockchain.md R137, R142). -/
theorem State.Chained.decoded (h : s.Chained false c n m ks crc) (hn : n ≤ s.blocks) : s.Decoded c n m ks crc := by
  induction h with
  | zero => exact ⟨by omega, rfl, by simp [State.blockBytes_zero, crcFoldBytes_nil]⟩
  | @succ n m m' ks ks' crc before hl hbyte hout ih =>
    have ih := (ih (by omega)).congr (m' := m') fun j hj i hi => hout _ (State.not_inBlock hd (by omega) (by omega) (by omega) hi)
    have hlast : s.mem.bytesAt (s.blockOffset n) s.bs = ks' := Mem.bytesAt_eq hl fun i hi => by
      obtain ⟨p, k, hp, -, -, hk⟩ := hbyte i hi
      rw [← before.mem_ahead hd le_rfl (by omega) hi]
      simpa using hk.trans hp.symm
    refine ⟨fun j hj i hi => ?_, by simp [hlast], ?_⟩
    · by_cases hjn : j < n
      · exact ih.byte j hjn i hi
      · obtain rfl : j = n := by omega
        obtain ⟨x, k, hx, hk, hm, -⟩ := hbyte i hi
        refine ⟨x, k, by rw [← hx, before.mem_ahead hd le_rfl (by omega) hi], ?_, hm⟩
        split
        · subst j; cases before; exact hk
        · cases before with
          | zero => contradiction
          | @succ n' m₀ _ ks₀ _ _ before' _ hbyte' _ =>
            obtain ⟨x', k', hx', -, -, hk'⟩ := hbyte' i hi
            rw [Nat.add_sub_cancel, ← before'.mem_ahead hd le_rfl (by omega) hi, hx', ← hk]
            simpa using hk'.symm
    · rw [State.blockBytes_succ, hlast, crcFoldBytes_append, ih.crc]
      cases c <;> rfl

end Disjoint

/-! One more block, and a fault in it. `u` is the state a block meets: the recurrence's memory, keystream and CRC. -/

/-- The block function of a transform. -/
def xorBlock (enc c : Bool) : Nat → State → Except State State := if enc then encBlock c else decBlock c

/-- A transform whose preconditions hold is the traversal with its block function. -/
theorem exec_transform {s : State} (enc c : Bool) (hf : s.failed = false) (hfit : s.Fits) (hks : s.ks.length = s.bs) :
    exec (if enc then .enc c else .dec c) s = .next (traverseWindows (xorBlock enc c) s) := by
  cases enc <;>
    exact (command_of_running hf).trans (congrArg _ (transform_eq_traverse hfit hks))

/-- What the engine can read does not change along the recurrence. -/
theorem State.Chained.readable {s u : State} {enc c : Bool} {n : Nat} {ks : List Byte} {crc : Word}
    (h : s.Chained enc c n u.mem ks crc) (a : Nat) : u.readable a = s.readable a := h.backed a

/-- What the engine can write does not change along the recurrence. -/
theorem State.Chained.writable {s u : State} {enc c : Bool} {n : Nat} {ks : List Byte} {crc : Word}
    (h : s.Chained enc c n u.mem ks crc) (hro : u.readOnly = s.readOnly) (a : Nat) : u.writable a = s.writable a :=
  State.writable_congr h.backed hro a

section Block
variable {s u : State} {enc c : Bool} {n : Nat} (h : s.Chained enc c n u.mem u.ks u.crc) (hks : s.ks.length = s.bs)
  (hbs : u.bs = s.bs) (hro : u.readOnly = s.readOnly)
include h hks hbs hro

/-- A block that takes every write continues the recurrence, and changes memory, the keystream and the CRC alone. -/
theorem State.Chained.step (hw : ∀ i < s.bs, s.writable (s.blockOffset n + i) = true) :
    ∃ m ks crc, xorBlock enc c (s.blockOffset n) u = .ok { u with mem := m, ks := ks, crc := crc } ∧
      s.Chained enc c (n + 1) m ks crc := by
  have hw : ∀ i < u.bs, u.writable (s.blockOffset n + i) = true := fun i hi => by
    rw [h.writable hro]; exact hw i (by omega)
  have hk : u.ks.length = u.bs := by rw [h.ks_length hks, hbs]
  cases enc
  · obtain ⟨m, ct, hb, hl, hct, hin, hch⟩ := decBlock_ok c hk hw
    rw [hbs] at hl hct hin hch
    refine ⟨m, ct, _, hb.trans (by rw [chain_eq]; rfl), h.succ hl (fun i hi => ?_) fun a ha => hch.outside a (by unfold State.InBlock at ha; omega)⟩
    obtain ⟨x, k, hx, hk, hm⟩ := hin i hi
    exact ⟨x, k, hx, hk, hm, (hct i hi).trans hx⟩
  · obtain ⟨m, ct, hb, hl, hct, hin, hch⟩ := encBlock_ok c hk hw
    rw [hbs] at hl hct hin hch
    refine ⟨m, ct, _, hb.trans (by rw [chain_eq]; rfl), h.succ hl (fun i hi => ?_) fun a ha => hch.outside a (by unfold State.InBlock at ha; omega)⟩
    obtain ⟨p, k, hp, hk, hc⟩ := hct i hi
    exact ⟨p, k, hp, hk, (hin i hi).trans hc, hc⟩

omit hks hro in
/-- A block with a non-backed offset stops at the first, with nothing of it written. -/
theorem State.Chained.readFault {k : Nat} (hk : k < s.bs) (hr : ∀ i < k, s.readable (s.blockOffset n + i) = true)
    (hu : s.readable (s.blockOffset n + k) = false) :
    xorBlock enc c (s.blockOffset n) u = .error (u.raise .invalidStreamRead (BitVec.ofNat 32 (s.blockOffset n + k))) := by
  have hr : ∀ i < k, u.readable (s.blockOffset n + i) = true := fun i hi => by rw [h.readable, hr i hi]
  have hu : u.readable (s.blockOffset n + k) = false := by rw [h.readable, hu]
  cases enc
  · exact decBlock_readFault (by omega) hr hu c
  · exact encBlock_readFault (by omega) hr hu c

/-- A readable block with an offset that takes no write stops at the first, with the bytes before it written. -/
theorem State.Chained.writeFault {k : Nat} (hk : k < s.bs) (hr : ∀ i < s.bs, s.readable (s.blockOffset n + i) = true)
    (hw : ∀ i < k, s.writable (s.blockOffset n + i) = true) (hu : s.writable (s.blockOffset n + k) = false) :
    ∃ m, xorBlock enc c (s.blockOffset n) u =
        .error ((u.setMem m).raise .invalidStreamWrite (BitVec.ofNat 32 (s.blockOffset n + k))) ∧
      (∀ l < k, ∃ p q, u.mem.byteAt (s.blockOffset n + l) = some p ∧ u.ks[l]? = some q ∧
        m.byteAt (s.blockOffset n + l) = some (p ^^^ q)) ∧
      ∀ a, a < s.blockOffset n ∨ s.blockOffset n + k ≤ a → m.byteAt a = u.mem.byteAt a := by
  have hkl : u.ks.length = u.bs := by rw [h.ks_length hks, hbs]
  have hr : ∀ i < u.bs, u.readable (s.blockOffset n + i) = true := fun i hi => by
    rw [h.readable, hr i (by omega)]
  have hw : ∀ i < k, u.writable (s.blockOffset n + i) = true := fun i hi => by rw [h.writable hro, hw i hi]
  have hu : u.writable (s.blockOffset n + k) = false := by rw [h.writable hro, hu]
  cases enc
  · exact decBlock_writeFault hkl (by omega) hr hw hu c
  · exact encBlock_writeFault hkl (by omega) hr hw hu c

end Block

end Sys2Proof.Machine
end

