-- ==== Sys2Proof/Laws/Encoding.lean ====
section
/-! SUPPORT. The fields of a command word of each format (30_encoding.md R86, R87), and a word from its fields. -/

namespace Sys2Proof

/-! The words as numbers. -/

theorem wordX_toNat (op : Byte) (a : BitVec 24) : (wordX op a).toNat = op.toNat * 2 ^ 24 + a.toNat := by
  show (op ++ a : BitVec (8 + 24)).toNat = _
  rw [BitVec.toNat_append, Nat.shiftLeft_eq, Nat.mul_comm, ← Nat.two_pow_add_eq_or_of_lt a.isLt]

theorem wordN_toNat (op : Byte) : (wordN op).toNat = op.toNat * 2 ^ 24 := by
  show (wordX op 0#24).toNat = _
  rw [wordX_toNat]; simp

theorem wordB_toNat (op b : Byte) : (wordB op b).toNat = op.toNat * 2 ^ 24 + b.toNat := by
  show (op ++ 0#16 ++ b : BitVec (8 + 16 + 8)).toNat = _
  rw [BitVec.toNat_append, BitVec.toNat_append, Nat.shiftLeft_eq, Nat.mul_comm, ← Nat.two_pow_add_eq_or_of_lt b.isLt]
  simp [Nat.shiftLeft_eq]; omega

theorem wordF_toNat (op : Byte) (c : Bool) : (wordF op c).toNat = op.toNat * 2 ^ 24 + c.toNat := by
  show (op ++ 0#23 ++ BitVec.ofBool c : BitVec (8 + 23 + 1)).toNat = _
  rw [BitVec.toNat_append, BitVec.toNat_append, Nat.shiftLeft_eq, Nat.mul_comm,
    ← Nat.two_pow_add_eq_or_of_lt (BitVec.ofBool c).isLt]
  simp [Nat.shiftLeft_eq]; omega

/-! The fields as numbers. -/

theorem opField_toNat (w : Word) : (opField w).toNat = w.toNat / 2 ^ 24 := by
  simp [opField, Nat.shiftRight_eq_div_pow]; omega

theorem argField_toNat (w : Word) : (argField w).toNat = w.toNat % 2 ^ 24 := by
  simp [argField]

/-- Bits 23:8 of a word, the must-be-zero bits of format `B`. -/
theorem bits23_8_toNat (w : Word) : (w.extractLsb' 8 16).toNat = w.toNat / 2 ^ 8 % 2 ^ 16 := by
  simp [Nat.shiftRight_eq_div_pow]

/-- Bits 7:0 of a word, `imm8` of format `B`. -/
theorem bits7_0_toNat (w : Word) : (w.extractLsb' 0 8).toNat = w.toNat % 2 ^ 8 := by
  simp

/-- Bits 23:1 of a word, the must-be-zero bits of format `F`. -/
theorem bits23_1_toNat (w : Word) : (w.extractLsb' 1 23).toNat = w.toNat / 2 % 2 ^ 23 := by
  simp [Nat.shiftRight_eq_div_pow]

/-- Bit 0 of a word, `c` of format `F`. -/
theorem bit0_eq (w : Word) : w.getLsbD 0 = decide (w.toNat % 2 = 1) := by
  rw [BitVec.getLsbD, Nat.testBit_zero]

/-! The op field of each format, and what each format's decoder reads from its own words. -/

@[simp] theorem opField_wordN (op : Byte) : opField (wordN op) = op :=
  BitVec.eq_of_toNat_eq (by rw [opField_toNat, wordN_toNat]; omega)

@[simp] theorem opField_wordB (op b : Byte) : opField (wordB op b) = op :=
  BitVec.eq_of_toNat_eq (by rw [opField_toNat, wordB_toNat]; omega)

@[simp] theorem opField_wordX (op : Byte) (a : BitVec 24) : opField (wordX op a) = op :=
  BitVec.eq_of_toNat_eq (by rw [opField_toNat, wordX_toNat]; omega)

@[simp] theorem opField_wordF (op : Byte) (c : Bool) : opField (wordF op c) = op :=
  BitVec.eq_of_toNat_eq (by rw [opField_toNat, wordF_toNat]; have := c.toNat_lt; omega)

@[simp] theorem decodeN_wordN (op : Byte) (i : Instr) : decodeN (wordN op) i = .ok i := by
  have : argField (wordN op) = 0#24 := BitVec.eq_of_toNat_eq (by rw [argField_toNat, wordN_toNat]; simp)
  simp [decodeN, this]

@[simp] theorem decodeB_wordB (op b : Byte) (mk : Byte → Instr) : decodeB (wordB op b) mk = .ok (mk b) := by
  have h₁ : (wordB op b).extractLsb' 8 16 = 0#16 :=
    BitVec.eq_of_toNat_eq (by rw [bits23_8_toNat, wordB_toNat, BitVec.toNat_ofNat]; omega)
  have h₂ : (wordB op b).extractLsb' 0 8 = b :=
    BitVec.eq_of_toNat_eq (by rw [bits7_0_toNat, wordB_toNat]; omega)
  simp [decodeB, h₁, h₂]

@[simp] theorem decodeX_wordX (op : Byte) (a : BitVec 24) (mk : Nat → Instr) :
    decodeX (wordX op a) mk = .ok (mk a.toNat) := by
  have : argField (wordX op a) = a := BitVec.eq_of_toNat_eq (by rw [argField_toNat, wordX_toNat]; omega)
  simp [decodeX, this]

@[simp] theorem decodeF_wordF (op : Byte) (c : Bool) (mk : Bool → Instr) : decodeF (wordF op c) mk = .ok (mk c) := by
  have h₁ : (wordF op c).extractLsb' 1 23 = 0#23 :=
    BitVec.eq_of_toNat_eq (by rw [bits23_1_toNat, wordF_toNat, BitVec.toNat_ofNat]; have := c.toNat_lt; omega)
  have h₂ : (wordF op c).getLsbD 0 = c := by
    rw [bit0_eq, wordF_toNat]; cases c <;> simp <;> omega
  rw [decodeF, if_pos h₁, h₂]

/-! What a format's decoder accepts is a word of that format. -/

theorem decodeN_eq_ok {w : Word} {i j : Instr} (h : decodeN w i = .ok j) : i = j ∧ w = wordN (opField w) := by
  unfold decodeN at h
  split at h <;> cases h
  rename_i h0
  refine ⟨rfl, BitVec.eq_of_toNat_eq ?_⟩
  have := congrArg BitVec.toNat h0
  rw [argField_toNat] at this
  rw [wordN_toNat, opField_toNat]; simp at this; omega

theorem decodeB_eq_ok {w : Word} {mk : Byte → Instr} {j : Instr} (h : decodeB w mk = .ok j) :
    ∃ b, mk b = j ∧ w = wordB (opField w) b := by
  unfold decodeB at h
  split at h <;> cases h
  rename_i h0
  refine ⟨_, rfl, BitVec.eq_of_toNat_eq ?_⟩
  have := congrArg BitVec.toNat h0
  rw [bits23_8_toNat, BitVec.toNat_ofNat] at this
  rw [wordB_toNat, opField_toNat, bits7_0_toNat]; have := w.isLt; omega

theorem decodeX_eq_ok {w : Word} {mk : Nat → Instr} {j : Instr} (h : decodeX w mk = .ok j) :
    ∃ a : BitVec 24, mk a.toNat = j ∧ w = wordX (opField w) a := by
  cases h
  refine ⟨_, rfl, BitVec.eq_of_toNat_eq ?_⟩
  rw [wordX_toNat, opField_toNat, argField_toNat]; omega

theorem decodeF_eq_ok {w : Word} {mk : Bool → Instr} {j : Instr} (h : decodeF w mk = .ok j) :
    ∃ c, mk c = j ∧ w = wordF (opField w) c := by
  unfold decodeF at h
  split at h <;> cases h
  rename_i h0
  refine ⟨_, rfl, BitVec.eq_of_toNat_eq ?_⟩
  have := congrArg BitVec.toNat h0
  rw [bits23_1_toNat, BitVec.toNat_ofNat] at this
  rw [wordF_toNat, opField_toNat, bit0_eq]
  have := w.isLt
  rcases Nat.mod_two_eq_zero_or_one w.toNat with h | h <;> simp [h] <;> omega

/-- A word that begins with the op byte of format `N` reads as its fields say, and so on: the word decides between the rows by `op` alone. -/
theorem opField_eq_of_toNat {w : Word} {n : Nat} (h : (opField w).toNat = n) : opField w = BitVec.ofNat 8 n :=
  BitVec.eq_of_toNat_eq (by simp [← h])

end Sys2Proof
end

