-- ==== Sys2Proof/Laws/PerInstr.lean ====
section
/-! SUPPORT. Statements made per command. Family RowMatch: the command's word is covered by the command's own row of the opcode map (30_encoding.md
R89). -/

namespace Sys2Proof.Laws.RowMatch

/-- The word of the command, masked as its row says, is the row's pattern. -/
def Statement (i : Instr) : Prop := (rowOf i).covers (encode i) = true

theorem clear : Statement .clear := by unfold Statement; decide
theorem pwclr : Statement .pwclr := by unfold Statement; decide
theorem ksgen : Statement .ksgen := by unfold Statement; decide
theorem ksclr : Statement .ksclr := by unfold Statement; decide
theorem crcinit : Statement .crcinit := by unfold Statement; decide
theorem crcscan : Statement .crcscan := by unfold Statement; decide
theorem enc (c : Bool) : Statement (.enc c) := by unfold Statement; cases c <;> decide
theorem dec (c : Bool) : Statement (.dec c) := by unfold Statement; cases c <;> decide

/-- A word of format `B` masked to bits 31:8 is its op byte. -/
theorem covers_wordB (name : String) (op b : Byte) : OpcodeRow.covers ⟨name, wordB op 0, 0xFFFFFF00⟩ (wordB op b) = true := by
  simp only [OpcodeRow.covers, beq_iff_eq]
  show (op ++ 0#16 ++ b : BitVec (8 + 16 + 8)) &&& (0xFF#8 ++ 0xFFFF#16 ++ 0#8) = op ++ 0#16 ++ 0#8
  have h : op &&& 0xFF#8 = op := BitVec.and_allOnes
  rw [BitVec.and_append, BitVec.and_append, h]; simp

/-- A word of format `X` masked to bits 31:24 is its op byte. -/
theorem covers_wordX (name : String) (op : Byte) (a : BitVec 24) :
    OpcodeRow.covers ⟨name, wordX op 0, 0xFF000000⟩ (wordX op a) = true := by
  simp only [OpcodeRow.covers, beq_iff_eq]
  show (op ++ a : BitVec (8 + 24)) &&& (0xFF#8 ++ 0#24) = op ++ 0#24
  have h : op &&& 0xFF#8 = op := BitVec.and_allOnes
  rw [BitVec.and_append, h]; simp

theorem pwpush (imm8 : Byte) : Statement (.pwpush imm8) := covers_wordB _ _ _
theorem kspush (imm8 : Byte) : Statement (.kspush imm8) := covers_wordB _ _ _
theorem crcb (imm8 : Byte) : Statement (.crcb imm8) := covers_wordB _ _ _
theorem ksrd (idx24 : Nat) : Statement (.ksrd idx24) := covers_wordX _ _ _

end Sys2Proof.Laws.RowMatch
end

