-- ==== Sys2Proof/Machine/HostSeq.lean ====
section
/-! DEFINITION. Host sequences (30_encoding.md R92, R93; 49_host_sequences.md R183, R185 to R187): lists of events a host may have in
`State.host`. They are the host's programs, no part of a step. -/

namespace Sys2Proof.Machine

/-- A command line: a write of the command's word to `CMD` (30_encoding.md R92). -/
def cmd (i : Instr) : HostEvent := .write 13 (encode i)

/-- `wr PLEN, v` (30_encoding.md R92). -/
def wrPlen (v : Nat) : HostEvent := .write 4 (BitVec.ofNat 32 v)

/-- `wr BCNT, v` (30_encoding.md R92). -/
def wrBcnt (v : Nat) : HostEvent := .write 5 (BitVec.ofNat 32 v)

/-- `pay[off..] = bytes`: the host's own path to payload memory (30_encoding.md R92). -/
def payload (off : Nat) (bytes : List Byte) : List HostEvent :=
  bytes.zipIdx.map fun cell => .payPut (BitVec.ofNat 32 (off + cell.2)) cell.1

/-- `PWSET` (30_encoding.md R93). -/
def pwset (bytes : List Byte) : List HostEvent := cmd .pwclr :: bytes.map fun b => cmd (.pwpush b)

/-- `KSLOAD` (30_encoding.md R93). -/
def ksload (bytes : List Byte) : List HostEvent := cmd .ksclr :: bytes.map fun b => cmd (.kspush b)

/-- `KSDUMP` (30_encoding.md R93). -/
def ksdump (bs : Nat) : List HostEvent := (List.range bs).flatMap fun i => [cmd (.ksrd i), .read 12]

/-- `CRCUPD` (30_encoding.md R93). -/
def crcupd (bytes : List Byte) : List HostEvent := bytes.map fun b => cmd (.crcb b)

/-- `FINALIZE` (30_encoding.md R93, 42_checksum.md R155). -/
def finalize : List HostEvent := [.read 9, .read 10, .read 11]

/-- The host's sizing formula, clamped to 1 (49_host_sequences.md R183). An empty file is refused before it is evaluated (R185). -/
def blockCount (bs fileSize : Nat) : Nat := max 1 (bs / (fileSize * 100))

/-- `MODULATE`: the accesses of a host whose file passed its own size check (49_host_sequences.md R185); `none` where that check fails. -/
def modulate (bs : Nat) (file password : List Byte) : Option (List HostEvent) :=
  if file.length < bs then none
  else some (payload 0 file ++ [cmd .clear] ++ pwset password ++
    [cmd .ksgen, wrPlen file.length, wrBcnt (blockCount bs file.length), cmd (.enc false), cmd .crcinit, cmd .crcscan,
     .read 10, .read 11, .read 2, cmd .clear])

/-- The first part of `DEMODULATE`: the copy, the operands and, unless forced, the trial pass (49_host_sequences.md R186). Not forced, it is also
the block's part of `VALIDATE` (R187). -/
def demodulateVerify (transformed : List Byte) (blocks : Byte) (force : Bool) : List HostEvent :=
  payload 0 transformed ++ [cmd .clear, wrPlen transformed.length, wrBcnt blocks.toNat] ++
    if force then [] else [cmd .crcinit, cmd .crcscan, .read 10, .read 11]

/-- The second part of `DEMODULATE`, once the host accepts the digest (49_host_sequences.md R186). -/
def demodulateDecode (password : List Byte) : List HostEvent :=
  pwset password ++ [cmd .ksgen, cmd (.dec false), .read 2, cmd .clear]

end Sys2Proof.Machine
end

