-- ==== Sys2Proof/Tests/Slice0.lean ====
section
/-! SUPPORT. Tests of the model on small states, expected values from spec/95_test_vectors.md (the vector is named in each), and for every statement
with hypotheses a witness that meets them. -/

namespace Sys2Proof.Tests

open Sys2Proof.Machine

/-! Helpers: small states. -/

/-- Just after reset, with `BLOCK_SIZE = bs`, `PW_MAX = 16`, upper case, and `bytes` backed from offset 0. -/
def block (bs : Nat) (bytes : List Byte) : State :=
  { State.reset with bs := bs, pwMax := 16, hexCase := .upper, readOnly := [], mem := bytes.zipIdx.map fun c => (c.2, c.1) }

/-- The same with a keystream loaded and the operands written. -/
def run (bs : Nat) (bytes ks : List Byte) (plen : Word) (bcnt : BitVec 8) : State :=
  { block bs bytes with ks := ks, plen := plen, bcnt := bcnt }

/-- A field of the next state. -/
def after {α : Type} (o : Host.Outcome State Fault Refusal) (f : State → α) : Option α :=
  match o with
  | .next t => some (f t)
  | .fault _ => none
  | .refused _ => none

/-- The payload bytes, offsets rising. -/
def pay (s : State) : List Byte := s.mem.map (·.2)

/-- The payload of S1 (95_test_vectors.md). -/
def s1Bytes : List Byte := [0, 1, 2, 3, 4, 5, 6, 7, 8, 9, 10, 11, 12, 13, 14, 15, 16, 17, 18, 19]

/-- S1 before `ENC`. -/
def s1 : State := run 8 s1Bytes [0, 1, 2, 3, 4, 5, 6, 7] 20 1

/-- The payload of V2. -/
def v2Bytes : List Byte :=
  [0x10, 0x11, 0x12, 0x13, 0x14, 0x15, 0x16, 0x17, 0x18, 0x19, 0x1A, 0x1B, 0x1C, 0x1D, 0x1E, 0x1F, 0x20, 0x21, 0x22, 0x23]

/-- V2 before `ENC.C`. -/
def v2 : State := run 4 v2Bytes [0x61, 0x01, 0x64, 0x03] 20 2

/-- The payload of V2 after `ENC.C`. -/
def v2Cipher : List Byte :=
  [0x71, 0x10, 0x76, 0x10, 0x65, 0x05, 0x60, 0x07, 0x18, 0x19, 0x1A, 0x1B, 0x59, 0x39, 0x5C, 0x3B, 0x45, 0x24, 0x42, 0x24]

/-- M1 before `ENC.C`: offsets 16 to 19 are not backed. -/
def m1 : State := run 4 (v2Bytes.take 16) [0x61, 0x01, 0x64, 0x03] 20 2

/-- M2 before `ENC.C`: offsets 18 and 19 are not backed. -/
def m2 : State := run 4 (v2Bytes.take 18) [0x61, 0x01, 0x64, 0x03] 20 2

/-- M3 before `ENC.C`: offset 6 can be read and not written. -/
def m3 : State := { run 4 [0xDE, 0xAD, 0xBE, 0xEF, 1, 2, 3, 4] [0, 1, 2, 3] 8 1 with readOnly := [6] }

/-- V3 before `DEC`: the windows overlap in offsets 4 to 7. -/
def v3 : State := run 8 [0xA0, 0xA0, 0xA0, 0xA0, 0, 0, 0, 0, 8, 9, 10, 11] [0, 1, 2, 3, 4, 5, 6, 7] 12 1

/-- V5 before `ENC`: both windows are the whole region. -/
def v5 : State := run 4 [0x55, 0x66, 0x77, 0x88] [0, 1, 2, 3] 4 1

/-- V7 before `ENC.C`: the windows tile the region. -/
def v7 : State := run 2 [0x00, 0x11, 0x22, 0x33, 0x44, 0x55, 0x66, 0x77, 0x88, 0x99, 0xAA, 0xBB] [0, 1] 12 3

/-- X15 before `CRCSCAN`: offsets 10 and 11 are not backed. -/
def x15 : State := run 4 [0xA0, 0xA1, 0xA2, 0xA3, 0xA4, 0xA5, 0xA6, 0xA7, 0xA8, 0xA9] [] 12 1

/-- The block right after a size fault (5.7), with a next host event. -/
def failedWith (e : HostEvent) : State := { block 8 [] with failed := true, cause := .sizeUnderflow, host := [e] }

/-! WellFormed. -/

/-- R88: the one operand with a range check. -/
theorem test_wellFormed_rejects_long_index : WellFormed (.ksrd (2 ^ 24)) = false := by decide
theorem test_wellFormed_accepts_last_index : WellFormed (.ksrd (2 ^ 24 - 1)) = true := by decide

/-! Decoding: words of spec section 7 and 5.3, written out. -/

theorem test_decode_control : decode 0x01000000 = .ok .clear := by decide
theorem test_decode_password : decode 0x10000000 = .ok .pwclr ∧ decode 0x11000061 = .ok (.pwpush 0x61) ∧
    decode 0x110000FF = .ok (.pwpush 0xFF) := by decide
theorem test_decode_keystream : decode 0x20000000 = .ok .ksgen ∧ decode 0x21000000 = .ok .ksclr ∧
    decode 0x220000AA = .ok (.kspush 0xAA) ∧ decode 0x23000004 = .ok (.ksrd 4) ∧
    decode 0x23FFFFFF = .ok (.ksrd 0xFFFFFF) := by decide
theorem test_decode_chain : decode 0x30000000 = .ok (.enc false) ∧ decode 0x30000001 = .ok (.enc true) ∧
    decode 0x31000000 = .ok (.dec false) ∧ decode 0x31000001 = .ok (.dec true) := by decide
theorem test_decode_checksum : decode 0x40000000 = .ok .crcinit ∧ decode 0x41000031 = .ok (.crcb 0x31) ∧
    decode 0x42000000 = .ok .crcscan := by decide
/-- Bit by bit (R86): `op` is bits 31 to 24, here 0100_0001, and `imm8` bits 7 to 0, here 0011_0101. -/
theorem test_decode_bits : decode (0b0100_0001#8 ++ 0b0000_0000_0000_0000#16 ++ 0b0011_0101#8) = .ok (.crcb 0x35) := by decide
theorem test_decode_rejects_unknown_op : decode 0x00000000 = .error .unknownOpcode ∧
    decode 0x02000000 = .error .unknownOpcode ∧ decode 0xFF000000 = .error .unknownOpcode := by decide
theorem test_decode_rejects_mbz : decode 0x01000001 = .error .mbzSet ∧ decode 0x20000001 = .error .mbzSet ∧
    decode 0x42000001 = .error .mbzSet ∧ decode 0x11000100 = .error .mbzSet ∧ decode 0x41000100 = .error .mbzSet ∧
    decode 0x30000002 = .error .mbzSet ∧ decode 0x31000003 = .error .mbzSet ∧ decode 0x30800000 = .error .mbzSet := by decide
theorem test_decodeTableWord : decodeTableWord 32 0x30000001 = some (.enc true) ∧ decodeTableWord 32 0 = none := by decide

/-! One step each. -/

/-- 5.7: the fault record and the buffers go, `PLEN` stays. -/
theorem test_clear : after (exec .clear { v2 with failed := true, cause := .sizeUnderflow })
    (fun t => (t.status, t.ks, t.plen, t.bcnt)) = some (0, [], 20, 2) := by decide
theorem test_pwclr : after (exec .pwclr { block 8 [] with pw := [1, 2] }) State.pw = some [] := by decide
/-- K28: the third push overflows. -/
theorem test_pwpush_full : after (exec (.pwpush 0x63) { block 8 [] with pwMax := 2, pw := [0x61, 0x62] })
    (fun t => (t.status, t.pw)) = some (0x61, [0x61, 0x62]) := by decide
theorem test_pwpush : after (exec (.pwpush 0x62) { block 8 [] with pw := [0x61] }) State.pw = some [0x61, 0x62] := by decide
/-- K5. -/
theorem test_ksgen_two : after (exec .ksgen { block 16 [] with pw := [0x61, 0x62] }) State.ks =
    some [0x61, 0x01, 0x64, 0x03, 0x04, 0x66, 0x06, 0x69, 0x08, 0x09, 0x6B, 0x0B, 0x6E, 0x0D, 0x0E, 0x70] := by decide
/-- K7: the sum wraps. -/
theorem test_ksgen_wraps : after (exec .ksgen { block 8 [] with pw := [0xFF] }) State.ks =
    some [0xFF, 0x01, 0x02, 0x02, 0x04, 0x05, 0x05, 0x07] := by decide
theorem test_ksclr : after (exec .ksclr v2) (fun t => (t.ks, t.ksrdy)) = some ([], false) := by decide
/-- K21. -/
theorem test_kspush_fills : after (exec (.kspush 0xBB) { block 2 [] with ks := [0xAA] })
    (fun t => (t.status, t.ks)) = some (2, [0xAA, 0xBB]) := by decide
/-- K22. -/
theorem test_kspush_full : after (exec (.kspush 0xCC) { block 2 [] with ks := [0xAA, 0xBB] })
    (fun t => (t.status, t.ks)) = some (0x63, [0xAA, 0xBB]) := by decide
/-- K25. -/
theorem test_ksrd : after (exec (.ksrd 0) { block 8 [] with ks := [0xAA] }) State.data = some 0xAA := by decide
/-- K26. -/
theorem test_ksrd_beyond : after (exec (.ksrd 1) { block 8 [] with ks := [0xAA], data := 0xAA })
    (fun t => (t.status, t.data)) = some (0x71, 0xAA) := by decide
/-- V2: two blocks a window, coupled. -/
theorem test_enc_coupled : after (exec (.enc true) v2) (fun t => (pay t, t.ks, t.crc, t.status)) =
    some (v2Cipher, [0x59, 0x39, 0x5C, 0x3B], 0xE2461F49, 0x10E) := by decide +kernel
/-- V3: overlapping windows. -/
theorem test_enc_overlap : after (exec (.enc false)
      (run 8 [0xA0, 0xA1, 0xA2, 0xA3, 0xA4, 0xA5, 0xA6, 0xA7, 0xA8, 0xA9, 0xAA, 0xAB] [0, 1, 2, 3, 4, 5, 6, 7] 12 1)) pay =
    some [0xA0, 0xA0, 0xA0, 0xA0, 0, 0, 0, 0, 8, 9, 10, 11] := by decide
/-- V2w: the wrong password spoils byte 2 only. -/
theorem test_dec_wrong_password : after (exec (.dec false) (run 4 v2Cipher [0x61, 0x01, 0x65, 0x03] 20 2))
    (fun t => (pay t, t.ks)) = some (v2Bytes.set 2 0x13, [0x59, 0x39, 0x5C, 0x3B]) := by decide
/-- V3, decoding: no round trip. -/
theorem test_dec_overlap : after (exec (.dec false) v3) (fun t => (pay t, t.ks)) =
    some ([0xA0, 0xA1, 0xA2, 0xA3, 0xA4, 0xA5, 0xA6, 0xA7, 8, 9, 10, 11], [4, 5, 6, 7, 8, 9, 10, 11]) := by decide
theorem test_crcinit : after (exec .crcinit { v2 with crc := 0x12345678 }) State.crc = some 0xFFFFFFFF := by decide
/-- X2, upper case, and X4, lower case. -/
theorem test_crcb :
    after (exec (.crcb 0) (block 8 [])) (fun t => (t.crc, t.dighex0, t.dighex1)) = some (0x2DFD1072, 0x32303244, 0x44384645) ∧
    after (exec (.crcb 0x31) { block 8 [] with hexCase := .lower }) (fun t => (t.crc, t.digest, t.dighex0, t.dighex1)) =
      some (0x7C231048, 0x83DCEFB7, 0x63643338, 0x37626665) := by decide +kernel
/-- X12: no keystream is needed. X15: a block is folded only when read whole. -/
theorem test_crcscan :
    after (exec .crcscan { s1 with ks := [] }) (fun t => (t.crc, t.status)) = some (0xD2A06069, 0xC) ∧
    after (exec .crcscan x15) (fun t => (t.crc, t.faddr, t.status)) = some (0x98842288, 0xA, 0x49) := by decide +kernel
/-- X5. -/
theorem test_crc_check_value :
    crcFoldBytes crcSeed [0x31, 0x32, 0x33, 0x34, 0x35, 0x36, 0x37, 0x38, 0x39] = 0x340BC6D9 := by decide +kernel

/-! Faults inside a traversal (5.6). -/

theorem test_readFault : after (exec (.enc true) m2) (fun t => (t.faddr, t.status, t.ks, t.crc)) =
    some (0x12, 0x4B, [0x65, 0x05, 0x60, 0x07], 0xD1C86FD6) := by decide +kernel
theorem test_writeFault : after (exec (.enc false) m3) (fun t => (t.faddr, t.status, pay t, t.ks)) =
    some (6, 0x5B, [0xDE, 0xAC, 0xBC, 0xEC, 0xDF, 0xAE, 3, 4], [0xDE, 0xAC, 0xBC, 0xEC]) := by decide
/-- E1: the size check comes before the keystream check. -/
theorem test_sizeFirst : after (exec (.enc false) (block 8 [])) State.status = some 0x21 := by decide
/-- E4. -/
theorem test_keystreamSecond : after (exec (.enc false) { s1 with ks := [0x55] }) (fun t => (t.status, t.ks)) =
    some (0x31, [0x55]) := by decide

/-! The register port (5.1 to 5.5, 5.7). -/

/-- 5.2: the clamp takes the low byte first. -/
theorem test_bcnt_clamp : clampBcnt 0 = 1 ∧ clampBcnt 0xFF = 0xFF ∧ clampBcnt 0x100 = 1 ∧ clampBcnt 0x107 = 7 ∧
    clampBcnt 0x1FF = 0xFF ∧ clampBcnt 0x12345600 = 1 ∧ clampBcnt 0xFFFFFFFF = 0xFF := by decide
theorem test_read_cmd_register : after (step { block 8 [] with host := [.read 13] }) (fun t => (t.rdata, t.status)) =
    some ([0], 0x81) := by decide
theorem test_write_crc_register : after (step { block 8 [] with host := [.write 8 0] }) (fun t => (t.crc, t.status)) =
    some (0xFFFFFFFF, 0x81) := by decide
theorem test_write_cmd_illegal : after (step { block 8 [] with host := [.write 13 0x20000001] })
    (fun t => (t.status, t.ks)) = some (0x11, []) := by decide
theorem test_failed_ignores : after (step (failedWith (.write 13 0x01000001))) State.status = some 0x21 := by decide
theorem test_failed_clear : after (step (failedWith (.write 13 0x01000000))) State.status = some 0 := by decide
theorem test_reset_registers : State.reset.register 5 = some 1 ∧ State.reset.register 8 = some 0xFFFFFFFF ∧
    State.reset.register 9 = some 0 ∧ State.reset.register 10 = some 0x30303030 ∧ State.reset.register 13 = none := by decide
theorem test_withFetchWord : after (step ((block 8 []).withFetchWord 32 0x11000061)) State.pw = some [0x61] := by decide

/-! Host sequences. -/

/-- H1 to H4. -/
theorem test_blockCount : blockCount 8 20 = 1 ∧ blockCount 4096 1 = 40 ∧ blockCount 4096 20 = 2 ∧ blockCount 4096 41 = 1 := by
  decide
/-- R93: `PWSET` of two bytes, as in program P3. -/
theorem test_pwset : pwset [0x61, 0x62] = [.write 13 0x10000000, .write 13 0x11000061, .write 13 0x11000062] := by decide

/-! Witnesses: a state and operands that meet the hypotheses of each statement, at boundary values of each clause. -/

theorem witness_DecodeOfEncode : WellFormed (.ksrd 0xFFFFFF) = true ∧ WellFormed (.enc true) = true := by decide
theorem witness_EncodeOfDecode : decode 0x23FFFFFF = .ok (.ksrd 0xFFFFFF) := by decide
theorem witness_DecodeIsTheOpcodeMap : decode 0x31000001 = .ok (.dec true) ∧
    rowOf (.dec true) ∈ opcodeMap ∧ (rowOf (.dec true)).covers 0x31000001 = true := by decide
theorem witness_OpcodeRowsNeverOverlap : rowOf (.ksrd 0) ∈ opcodeMap ∧ (rowOf (.ksrd 0)).covers 0x23FFFFFF = true := by decide
theorem witness_StepRunsDecodedCommand : ({ s1 with host := [.write 13 0x30000001] } : State).host = .write 13 0x30000001 :: [] ∧
    decode 0x30000001 = .ok (.enc true) := by decide
theorem witness_PlacedWordRunsNext : decodeTableWord 32 0x23000004 = some (.ksrd 4) := by decide
theorem witness_NoAccessNoChange : s1.host = [] := by decide
theorem witness_IllegalWordRaisesIllegalCommand : ({ s1 with host := [.write 13 0x30000002] } : State).failed = false ∧
    decode 0x30000002 = .error .mbzSet ∧ decode 0x00FFFFFF = .error .unknownOpcode := by decide

/-- Each clause at the ends of its range. -/
theorem witness_FailedStateIgnoresAllButClear :
    (failedWith (.write 13 0x01000001)).failed = true ∧ (0x01000001 : Word) ≠ 0x01000000 ∧
    (failedWith (.read 13)).host = [.read 13] ∧ 13 ≤ (13 : BitVec 6).toNat ∧ 13 ≤ (63 : BitVec 6).toNat ∧
    (failedWith (.write 3 0)).host = [.write 3 0] ∧ (3 : BitVec 6) ≠ 4 ∧ (6 : BitVec 6) ≠ 5 ∧ (63 : BitVec 6) ≠ 13 ∧
    (0 : BitVec 6).toNat < 13 ∧ (12 : BitVec 6).toNat < 13 ∧
    (failedWith (.write 4 9)).host = [.write 4 9] ∧ (failedWith (.write 5 0)).host = [.write 5 0] := by decide
theorem witness_FailedLeftOnlyByClearOrReset :
    (failedWith .reset).failed = true ∧ (∃ t, step (failedWith .reset) = .next t) ∧
    (∃ rest, (failedWith (.write 13 0x01000000)).host = .write 13 0x01000000 :: rest) ∧
    (∃ t, step (failedWith (.read 63)) = .next t) ∧
    ¬(∃ rest, (failedWith (.read 63)).host = .write 13 0x01000000 :: rest ∨ (failedWith (.read 63)).host = .reset :: rest) :=
  ⟨by decide, ⟨_, rfl⟩, ⟨_, rfl⟩, ⟨_, rfl⟩, by simp [failedWith]⟩
theorem witness_ReadsOfDefinedRegisters :
    ({ s1 with host := [.read 0] } : State).host = .read 0 :: [] ∧
    ((0 : BitVec 6), BitVec.ofNat 32 s1.bs) ∈ [((0 : BitVec 6), BitVec.ofNat 32 s1.bs), (12, s1.data)] ∧
    ((12 : BitVec 6), s1.data) ∈ [((0 : BitVec 6), BitVec.ofNat 32 s1.bs), (12, s1.data)] := by decide
theorem witness_IllegalAccessesRaise : s1.failed = false ∧
    ({ s1 with host := [.read 13] } : State).host = .read 13 :: [] ∧ 13 ≤ (13 : BitVec 6).toNat ∧ 13 ≤ (63 : BitVec 6).toNat ∧
    ({ s1 with host := [.write 12 0] } : State).host = .write 12 0 :: [] ∧ (12 : BitVec 6) ≠ 4 ∧ (12 : BitVec 6) ≠ 5 ∧
    (12 : BitVec 6) ≠ 13 := by decide
theorem witness_WritesOfPlenAndBcnt : ({ s1 with host := [.write 4 0xFFFFFFFF] } : State).host = .write 4 0xFFFFFFFF :: [] ∧
    ({ s1 with host := [.write 5 0x100] } : State).host = .write 5 0x100 :: [] := by decide
theorem witness_DighexLanes : 3 < 8 ∧ 4 < 8 ∧ 7 < 8 := by decide
theorem witness_ResetRegisterValues :
    ((12 : BitVec 6), (0 : Word)) ∈ [((8 : BitVec 6), (0xFFFFFFFF : Word)), (12, 0)] := by decide
theorem witness_ResetInputResetsRegisters : (failedWith .reset).host = .reset :: [] := by decide

/-- The invariant holds of S1 and of a state in which offset `2^32 - 1` is backed. -/
theorem witness_StepKeepsInvariant : s1.Inv ∧ ({ x15 with mem := [(2 ^ 32 - 1, 7)] } : State).Inv ∧ (∃ t, step s1 = .next t) :=
  ⟨⟨by decide, by decide, by decide, by decide, by decide, by decide, by decide, by decide, by decide, by decide, by decide,
    by decide⟩,
   ⟨by decide, by decide, by decide, by decide, by decide, by decide, by decide, by decide, by decide, by decide, by decide,
    by decide⟩, ⟨_, rfl⟩⟩

theorem witness_ClearDiscardsTheRun : 1 ≤ s1.bs := by decide
theorem witness_PwclrEmptiesThePassword : s1.failed = false := by decide
/-- Both clauses: one below the capacity, and at it. -/
theorem witness_PwpushAppendsOrOverflows : (block 8 []).failed = false ∧
    ({ block 8 [] with pwMax := 2, pw := [1] } : State).pw.length < 2 ∧
    ({ block 8 [] with pwMax := 2, pw := [1, 2] } : State).pw.length = 2 := by decide
theorem witness_KsgenWithoutPasswordIsTheRamp : (block 8 []).failed = false ∧ (block 8 []).pw = [] := by decide
/-- K18 at `BS = 10`: applied at index 6 (the last of a round) and 9 (the first of the next), not at 8, the position shifted over, nor at 1. -/
theorem witness_KsgenClosedForm :
    ({ block 10 [] with pw := [0x61, 0x62, 0x63, 0x64] } : State).failed = false ∧
    ({ block 10 [] with pw := [0x61, 0x62, 0x63, 0x64] } : State).pw.length > 0 ∧
    (6 % (2 * 4 + 1) % 2 = 0 ∧ 6 % (2 * 4 + 1) < 2 * 4) ∧ (9 % (2 * 4 + 1) % 2 = 0 ∧ 9 % (2 * 4 + 1) < 2 * 4) ∧
    ¬(8 % (2 * 4 + 1) % 2 = 0 ∧ 8 % (2 * 4 + 1) < 2 * 4) ∧ ¬(1 % (2 * 4 + 1) % 2 = 0 ∧ 1 % (2 * 4 + 1) < 2 * 4) := by decide
/-- K8. -/
theorem witness_ZeroPasswordIsTheRamp : ({ block 8 [] with pw := [0, 0] } : State).failed = false ∧
    ∀ p ∈ ({ block 8 [] with pw := [0, 0] } : State).pw, p = 0 := by decide
theorem witness_KsgenIsAFunctionOfPassword : s1.failed = false ∧ (block 8 []).failed = false ∧ s1.bs = (block 8 []).bs ∧
    s1.pw = (block 8 []).pw := by decide
theorem witness_KsclrDiscardsTheKeystream : s1.failed = false ∧ 1 ≤ s1.bs := by decide
/-- Both clauses: the push that fills the buffer, and one into the full buffer. -/
theorem witness_KspushAppendsOrOverflows : ({ block 2 [] with ks := [1] } : State).failed = false ∧
    ({ block 2 [] with ks := [1] } : State).ks.length < 2 ∧ ({ block 2 [] with ks := [1, 2] } : State).ks.length = 2 := by decide
/-- Both clauses: the last defined byte, and the first undefined one. -/
theorem witness_KsrdReadsDefinedBytesOnly : s1.failed = false ∧ 7 < s1.ks.length ∧ s1.ks.length ≤ 8 ∧
    2 ^ 24 - 1 < 2 ^ 24 := by decide
theorem witness_CrcinitSeeds : s1.failed = false := by decide
theorem witness_CrcbFoldsOneByte : x15.failed = false := by decide
/-- X13: the size check at its boundary, the windows overlapping. -/
theorem witness_CrcscanFoldsBothWindows : (run 8 (s1Bytes.take 16) [] 16 2).failed = false ∧ (run 8 (s1Bytes.take 16) [] 16 2).bcnt ≠ 0 ∧
    (run 8 (s1Bytes.take 16) [] 16 2).Fits ∧ (run 8 (s1Bytes.take 16) [] 16 2).WindowsReadable :=
  ⟨by decide, by decide, by decide, State.windowsReadable_of_blocks (by decide)⟩
/-- X15: block 1, byte 2. -/
theorem witness_CrcscanReadFault : x15.failed = false ∧ x15.Fits ∧ 1 < x15.blocks ∧ 2 < x15.bs ∧
    (∀ j' < 1, ∀ i < x15.bs, x15.readable (x15.blockOffset j' + i) = true) ∧
    (∀ i < 2, x15.readable (x15.blockOffset 1 + i) = true) ∧ x15.readable (x15.blockOffset 1 + 2) = false := by decide
/-- E2: `PLEN` one below the window. -/
theorem witness_SizeCheckFirst : (run 8 s1Bytes [] 7 1).failed = false ∧
    (run 8 s1Bytes [] 7 1).bs * (run 8 s1Bytes [] 7 1).bcnt.toNat > (run 8 s1Bytes [] 7 1).plen.toNat := by decide
/-- V9's boundary, `PLEN = BS * BCNT`, one keystream byte short. -/
theorem witness_KeystreamCheckSecond : (run 8 s1Bytes [1, 2, 3, 4, 5, 6, 7] 8 1).failed = false ∧
    (run 8 s1Bytes [1, 2, 3, 4, 5, 6, 7] 8 1).Fits ∧
    (run 8 s1Bytes [1, 2, 3, 4, 5, 6, 7] 8 1).ks.length ≠ (run 8 s1Bytes [1, 2, 3, 4, 5, 6, 7] 8 1).bs := by decide
/-- V5: windows that overlap as far as they can. -/
theorem witness_EncCompletes :
    v5.failed = false ∧ v5.bcnt ≠ 0 ∧ v5.Fits ∧ v5.ks.length = v5.bs ∧ v5.WindowsWritable :=
  ⟨by decide, by decide, by decide, by decide, State.windowsWritable_of_blocks (by decide)⟩
/-- V3: windows that overlap in part. -/
theorem witness_DecCompletes :
    v3.failed = false ∧ v3.bcnt ≠ 0 ∧ v3.Fits ∧ v3.ks.length = v3.bs ∧ v3.WindowsWritable :=
  ⟨by decide, by decide, by decide, by decide, State.windowsWritable_of_blocks (by decide)⟩
/-- V7: windows that tile the region. -/
theorem witness_EncChainsCiphertext :
    v7.failed = false ∧ v7.bcnt ≠ 0 ∧ v7.Disjoint ∧ v7.ks.length = v7.bs ∧ v7.WindowsWritable :=
  ⟨by decide, by decide, by decide, by decide, State.windowsWritable_of_blocks (by decide)⟩
/-- V2: windows with a gap between them. -/
theorem witness_DecUnchainsCiphertext :
    v2.failed = false ∧ v2.bcnt ≠ 0 ∧ v2.Disjoint ∧ v2.ks.length = v2.bs ∧ v2.WindowsWritable :=
  ⟨by decide, by decide, by decide, by decide, State.windowsWritable_of_blocks (by decide)⟩
theorem witness_DecUndoesEnc : v7.failed = false ∧ v7.Disjoint ∧ v7.ks.length = v7.bs ∧ v7.WindowsWritable :=
  ⟨by decide, by decide, by decide, State.windowsWritable_of_blocks (by decide)⟩
theorem witness_CoupledAndScannedChecksumsAgree :
    v2.failed = false ∧ v2.Disjoint ∧ v2.ks.length = v2.bs ∧ v2.WindowsWritable :=
  ⟨by decide, by decide, by decide, State.windowsWritable_of_blocks (by decide)⟩
/-- V2w. -/
theorem witness_WrongKeystreamSpoilsFirstBlockOnly :
    v2.failed = false ∧ v2.bcnt ≠ 0 ∧ v2.Disjoint ∧ v2.ks.length = v2.bs ∧
    ([0x61, 0x01, 0x65, 0x03] : List Byte).length = v2.bs ∧ v2.WindowsWritable :=
  ⟨by decide, by decide, by decide, by decide, by decide, State.windowsWritable_of_blocks (by decide)⟩
theorem witness_EncOfWholeRegionLeavesZeros : v5.failed = false ∧ v5.bcnt = 1 ∧ v5.plen.toNat = v5.bs ∧
    v5.ks.length = v5.bs ∧ ∀ a < v5.bs, v5.writable a = true := by decide
/-- M2: block 2 (bottom block 0), byte 2, with windows that do not overlap. -/
theorem witness_TransformReadFault : m2.failed = false ∧ m2.Fits ∧ m2.Disjoint ∧ m2.ks.length = m2.bs ∧ 2 < m2.blocks ∧ 2 < m2.bs ∧
    (∀ j' < 2, ∀ l < m2.bs, m2.writable (m2.blockOffset j' + l) = true) ∧
    (∀ l < 2, m2.readable (m2.blockOffset 2 + l) = true) ∧ m2.readable (m2.blockOffset 2 + 2) = false := by decide
/-- The clause of block 0: nothing is backed. -/
theorem witness_TransformReadFault_first : (run 4 [] [0, 1, 2, 3] 4 1).failed = false ∧ (run 4 [] [0, 1, 2, 3] 4 1).Fits ∧
    (run 4 [] [0, 1, 2, 3] 4 1).ks.length = (run 4 [] [0, 1, 2, 3] 4 1).bs ∧ 0 < (run 4 [] [0, 1, 2, 3] 4 1).blocks ∧
    (run 4 [] [0, 1, 2, 3] 4 1).readable ((run 4 [] [0, 1, 2, 3] 4 1).blockOffset 0 + 0) = false := by decide
/-- M3: block 1, byte 2; the windows do not overlap, so no earlier block holds a byte of it. -/
theorem witness_TransformWriteFault : m3.failed = false ∧ m3.Fits ∧ m3.Disjoint ∧ m3.ks.length = m3.bs ∧ 1 < m3.blocks ∧ 2 < m3.bs ∧
    (∀ j' < 1, ∀ l < m3.bs, m3.writable (m3.blockOffset j' + l) = true) ∧
    (∀ l < m3.bs, m3.readable (m3.blockOffset 1 + l) = true) ∧
    (∀ l < 2, m3.writable (m3.blockOffset 1 + l) = true) ∧ m3.writable (m3.blockOffset 1 + 2) = false ∧
    (∀ j' < 1, ∀ l < m3.bs,
      ¬(m3.blockOffset j' ≤ m3.blockOffset 1 + l ∧ m3.blockOffset 1 + l < m3.blockOffset j' + m3.bs)) := by decide
/-- The clause of block 0: its first byte cannot be written. -/
theorem witness_TransformWriteFault_first : ({ v5 with readOnly := [0] } : State).failed = false ∧
    ({ v5 with readOnly := [0] } : State).Fits ∧ 0 < ({ v5 with readOnly := [0] } : State).blocks ∧
    (∀ l < 4, ({ v5 with readOnly := [0] } : State).readable (({ v5 with readOnly := [0] } : State).blockOffset 0 + l) = true) ∧
    ({ v5 with readOnly := [0] } : State).writable (({ v5 with readOnly := [0] } : State).blockOffset 0 + 0) = false := by decide
theorem witness_MemReadOfBackedOffset : s1.failed = false ∧ s1.mem.byteAt 19 = some 19 ∧ s1.readable 20 = false := by decide
/-- Both ways to refuse a write: not backed, and readable only. -/
theorem witness_MemWriteChangesOneByte : m3.failed = false ∧ m3.writable 7 = true ∧ m3.writable 8 = false ∧
    m3.writable 6 = false ∧ m3.readable 6 = true := by decide
theorem witness_CommandsKeepBacking : ∃ t, exec (.enc false) v5 = .next t ∧ t.mem ≠ v5.mem := ⟨_, rfl, by decide⟩
theorem witness_WritesStayInTheWindows : ∃ t, exec (.enc false) v2 = .next t ∧ t.mem.byteAt 16 ≠ v2.mem.byteAt 16 :=
  ⟨_, rfl, by decide⟩
theorem witness_HostPathToPayload : ({ s1 with host := [.payPut 0xFFFFFFFF 1] } : State).host = .payPut 0xFFFFFFFF 1 :: [] ∧
    ({ s1 with host := [.payDrop 0] } : State).host = .payDrop 0 :: [] := by decide
theorem witness_RegisterCommandsFrame : (∃ t, exec (.pwpush 1) s1 = .next t) ∧ (∃ t, exec (.kspush 1) s1 = .next t) ∧
    (∃ t, exec (.ksrd 8) s1 = .next t) ∧ (∃ t, exec (.crcb 1) s1 = .next t) := ⟨⟨_, rfl⟩, ⟨_, rfl⟩, ⟨_, rfl⟩, ⟨_, rfl⟩⟩
theorem witness_TraversalCommandsFrame : (∃ t, exec (.enc true) m3 = .next t) ∧ (∃ t, exec (.dec false) v2 = .next t) ∧
    (∃ t, exec .crcscan x15 = .next t) := ⟨⟨_, rfl⟩, ⟨_, rfl⟩, ⟨_, rfl⟩⟩

end Sys2Proof.Tests
end

section
/-! The word of a decoded command (30_encoding.md R89, R91): each format's decoder accepts one word per command. -/

namespace Sys2Proof

theorem encode_of_decodeN {w : Word} {i j : Instr} {n : Nat} (hop : (opField w).toNat = n)
    (hi : encode i = wordN (BitVec.ofNat 8 n)) (h : decodeN w i = .ok j) : encode j = w := by
  obtain ⟨rfl, hw⟩ := decodeN_eq_ok h
  rw [hi, ← opField_eq_of_toNat hop, ← hw]

theorem encode_of_decodeB {w : Word} {mk : Byte → Instr} {j : Instr} {n : Nat} (hop : (opField w).toNat = n)
    (hmk : ∀ b, encode (mk b) = wordB (BitVec.ofNat 8 n) b) (h : decodeB w mk = .ok j) : encode j = w := by
  obtain ⟨b, rfl, hw⟩ := decodeB_eq_ok h
  rw [hmk, ← opField_eq_of_toNat hop, ← hw]

theorem encode_of_decodeX {w : Word} {mk : Nat → Instr} {j : Instr} {n : Nat} (hop : (opField w).toNat = n)
    (hmk : ∀ a : BitVec 24, encode (mk a.toNat) = wordX (BitVec.ofNat 8 n) a) (h : decodeX w mk = .ok j) :
    encode j = w := by
  obtain ⟨a, rfl, hw⟩ := decodeX_eq_ok h
  rw [hmk, ← opField_eq_of_toNat hop, ← hw]

theorem encode_of_decodeF {w : Word} {mk : Bool → Instr} {j : Instr} {n : Nat} (hop : (opField w).toNat = n)
    (hmk : ∀ c, encode (mk c) = wordF (BitVec.ofNat 8 n) c) (h : decodeF w mk = .ok j) : encode j = w := by
  obtain ⟨c, rfl, hw⟩ := decodeF_eq_ok h
  rw [hmk, ← opField_eq_of_toNat hop, ← hw]

/-- A decoded command has the word it was read from (R89, R91). -/
theorem encode_of_decode {w : Word} {i : Instr} (h : decode w = .ok i) : encode i = w := by
  unfold decode at h
  split at h
  case h_1 hop => exact encode_of_decodeN hop rfl h
  case h_2 hop => exact encode_of_decodeN hop rfl h
  case h_3 hop => exact encode_of_decodeB hop (fun _ => rfl) h
  case h_4 hop => exact encode_of_decodeN hop rfl h
  case h_5 hop => exact encode_of_decodeN hop rfl h
  case h_6 hop => exact encode_of_decodeB hop (fun _ => rfl) h
  case h_7 hop => exact encode_of_decodeX hop (fun a => by simp [encode]) h
  case h_8 hop => exact encode_of_decodeF hop (fun _ => rfl) h
  case h_9 hop => exact encode_of_decodeF hop (fun _ => rfl) h
  case h_10 hop => exact encode_of_decodeN hop rfl h
  case h_11 hop => exact encode_of_decodeB hop (fun _ => rfl) h
  case h_12 hop => exact encode_of_decodeN hop rfl h
  case h_13 => cases h

end Sys2Proof
end

section
/-! One step (00_scope.md R6): the event at the head of the host's list meets the state without that event, and a write to `CMD` dispatches its
word (30_encoding.md R85, R91). -/

namespace Sys2Proof.Machine

theorem step_of_host_nil {s : State} (h : s.host = []) : step s = .next s := by
  simp only [step, nextEvent, h]

theorem step_of_host_cons {s : State} {e : HostEvent} {rest : List HostEvent} (h : s.host = e :: rest) :
    step s = hostEvent e (s.setHost rest) := by
  simp only [step, nextEvent, h]

@[simp] theorem hostEvent_write_cmd (w : Word) (s : State) : hostEvent (.write 13 w) s = execute w s := rfl

/-- Every command but `CLEAR` has the shape `command`: it checks `FAILED` itself (log entry 9). -/
theorem exec_eq_command {i : Instr} (hi : i ≠ .clear) : ∃ effect, ∀ s, exec i s = command effect s := by
  cases i with
  | clear => exact absurd rfl hi
  | _ => exact ⟨_, fun _ => rfl⟩

/-- In the Failed state every command but `CLEAR` is ignored (60_exceptions.md R212). -/
theorem exec_of_failed {i : Instr} {s : State} (h : s.failed = true) (hi : i ≠ .clear) : exec i s = .next s := by
  obtain ⟨effect, heq⟩ := exec_eq_command hi
  rw [heq, command_of_failed h]

/-- In the Failed state every word but `CLEAR`'s is ignored, decoded or not (R91). -/
theorem execute_of_failed {w : Word} {s : State} (h : s.failed = true) (hw : w ≠ clearWord) :
    execute w s = .next s :=
  if_pos ⟨h, hw⟩

/-- The dispatcher's own check of `FAILED` agrees with the commands' (log entry 9): only `CLEAR` has `CLEAR`'s word. -/
theorem execute_of_decode {w : Word} {i : Instr} (hd : decode w = .ok i) (s : State) : execute w s = exec i s := by
  by_cases hf : s.failed = true ∧ w ≠ clearWord
  · obtain ⟨hfailed, hw⟩ := hf
    have hi : i ≠ .clear := by
      rintro rfl
      exact hw (encode_of_decode hd).symm
    rw [execute_of_failed hfailed hw, exec_of_failed hfailed hi]
  · rw [execute, if_neg hf, hd]

/-- Settles O6: the step hands the word to `execute`, which for a decoded command is `exec`, in the Failed state too. -/
theorem stepRunsDecodedCommand : Obligations.StepRunsDecodedCommand := by
  intro s rest w i hhost hd
  rw [step_of_host_cons hhost, hostEvent_write_cmd, execute_of_decode hd]
  rfl

/-- Settles O8: with no event to come the step is the idle one. -/
theorem noAccessNoChange : Obligations.NoAccessNoChange := fun _ => step_of_host_nil

/-- Settles O54: the next memory is `Mem.put`'s or `Mem.drop`'s. -/
theorem hostPathToPayload : Obligations.HostPathToPayload := by
  intro s rest off
  constructor
  · intro v hput
    refine ⟨s.mem.put off.toNat v, step_of_host_cons hput, ?_, fun a ha => ?_⟩
    · rw [Mem.byteAt_put, if_pos rfl]
    · rw [Mem.byteAt_put, if_neg ha]
  · intro hdrop
    refine ⟨s.mem.drop off.toNat, step_of_host_cons hdrop, ?_, fun a ha => ?_⟩
    · rw [Mem.byteAt_drop, if_pos rfl]
    · rw [Mem.byteAt_drop, if_neg ha]

end Sys2Proof.Machine
end

section
/-! The register port (10_state.md R26, R33, R34; 30_encoding.md R85) and the host's next word (log entry 3). -/

namespace Sys2Proof.Machine

/-- The eight bits a write of `BCNT` stores are `max(1, v[7:0])` (10_state.md R34). -/
theorem clampBcnt_toNat (v : Word) : (clampBcnt v).toNat = max 1 (v.toNat % 256) := by
  have hlow : (v.extractLsb' 0 8).toNat = v.toNat % 256 := bits7_0_toNat v
  unfold clampBcnt
  split
  · rename_i hzero
    rw [hzero] at hlow
    rw [← hlow]
    rfl
  · rename_i hne
    have hpos : (v.extractLsb' 0 8).toNat ≠ 0 := fun h => hne (BitVec.eq_of_toNat_eq h)
    omega

theorem clampBcnt_ne_zero (v : Word) : clampBcnt v ≠ 0 := by
  intro h
  have hpos : 1 ≤ (clampBcnt v).toNat := (Nat.le_max_left 1 _).trans_eq (clampBcnt_toNat v).symm
  rw [h] at hpos
  exact absurd hpos (by decide)

/-- A read of a register that has a value answers it and does nothing else (30_encoding.md R85). -/
theorem accessRead_of_register {n : BitVec 6} {v : Word} {s : State} (h : s.register n = some v) :
    accessRead n s = s.answer v := by
  rw [accessRead, h]

/-- Settles O14: the two writable registers take the word and its clamped low byte. -/
theorem writesOfPlenAndBcnt : Obligations.WritesOfPlenAndBcnt := by
  intro s rest v
  exact ⟨fun hhost => step_of_host_cons hhost,
    fun hhost => ⟨clampBcnt v, clampBcnt_toNat v, step_of_host_cons hhost⟩⟩

/-- Settles O12: each of the thirteen numbers has its row in the register map. -/
theorem readsOfDefinedRegisters : Obligations.ReadsOfDefinedRegisters := by
  intro s rest n v hhost hrow
  have hreg : (s.setHost rest).register n = some v := by
    simp only [List.mem_cons, Prod.mk.injEq, List.not_mem_nil, or_false] at hrow
    rcases hrow with ⟨rfl, rfl⟩ | ⟨rfl, rfl⟩ | ⟨rfl, rfl⟩ | ⟨rfl, rfl⟩ | ⟨rfl, rfl⟩ | ⟨rfl, rfl⟩ | ⟨rfl, rfl⟩ |
      ⟨rfl, rfl⟩ | ⟨rfl, rfl⟩ | ⟨rfl, rfl⟩ | ⟨rfl, rfl⟩ | ⟨rfl, rfl⟩ | ⟨rfl, rfl⟩ <;> rfl
  rw [step_of_host_cons hhost, hostEvent, accessRead_of_register hreg]
  rfl

/-- A numbered word of the opcode table is a 32-bit word that decodes. -/
theorem decode_of_decodeTableWord {nbits w : Nat} {i : Instr} (h : decodeTableWord nbits w = some i) :
    decode (BitVec.ofNat 32 w) = .ok i := by
  unfold decodeTableWord at h
  split at h
  · split at h <;> cases h
    assumption
  · cases h

/-- Settles O7: the queued write is taken off again, and its word runs. -/
theorem placedWordRunsNext : Obligations.PlacedWordRunsNext := by
  intro s nbits w i h
  have hhost : (s.withFetchWord nbits w).host = .write 13 (BitVec.ofNat 32 w) :: s.host := rfl
  rw [step_of_host_cons hhost, hostEvent_write_cmd, execute_of_decode (decode_of_decodeTableWord h)]
  rfl

end Sys2Proof.Machine
end

section
/-! The packed words `STATUS`, `DIGHEX0` and `DIGHEX1` as numbers (10_state.md R28, R36; 42_checksum.md R156). -/

namespace Sys2Proof.Machine

/-- Two fields side by side, as a number. -/
theorem toNat_append_eq_add {m n : Nat} (x : BitVec m) (y : BitVec n) :
    (x ++ y).toNat = x.toNat * 2 ^ n + y.toNat := by
  rw [BitVec.toNat_append, Nat.shiftLeft_eq, Nat.mul_comm, ← Nat.two_pow_add_eq_or_of_lt y.isLt]

/-- The codes of R30. -/
theorem Pass.code_toNat (p : Pass) :
    p.code.toNat = if p = .idle then 0 else if p = .top then 1 else if p = .bottom then 2 else 3 := by
  cases p <;> rfl

/-- The codes of R200. -/
theorem Cause.code_toNat (c : Cause) :
    c.code.toNat = if c = .noFault then 0 else if c = .illegalCommand then 1 else if c = .sizeUnderflow then 2
      else if c = .keystreamLength then 3 else if c = .invalidStreamRead then 4
      else if c = .invalidStreamWrite then 5 else if c = .bufferOverflow then 6
      else if c = .indexRange then 7 else 8 := by
  cases c <;> rfl

/-- `KSRDY` as a bit. -/
theorem State.ksrdy_toNat (s : State) : (BitVec.ofBool s.ksrdy).toNat = if s.ks.length = s.bs then 1 else 0 := by
  unfold State.ksrdy
  split <;> simp_all

/-- Settles O15: the fields of `STATUS` by weight. -/
theorem statusWordLayout : Obligations.StatusWordLayout := by
  intro s
  have hfailed : (BitVec.ofBool s.failed).toNat = if s.failed then 1 else 0 := by cases s.failed <;> rfl
  rw [← hfailed, ← s.ksrdy_toNat, ← Pass.code_toNat, ← Cause.code_toNat]
  simp only [State.status, toNat_append_eq_add, BitVec.toNat_zero]
  omega

/-- The characters of R156. -/
theorem hexDigit_toNat (hexCase : HexCase) (n : BitVec 4) :
    (hexDigit hexCase n).toNat =
      if n.toNat ≤ 9 then 0x30 + n.toNat
      else if hexCase = .upper then 0x41 + (n.toNat - 10) else 0x61 + (n.toNat - 10) := by
  revert n
  cases hexCase <;> decide

/-- Hex digit `k` of a word, the most significant first. -/
theorem hexNibble_toNat (w : Word) {k : Nat} (hk : k < 8) :
    (w.extractLsb' (28 - 4 * k) 4).toNat = w.toNat / 16 ^ (7 - k) % 16 := by
  rw [BitVec.extractLsb'_toNat, Nat.shiftRight_eq_div_pow, show 28 - 4 * k = 4 * (7 - k) by omega, pow_mul]
  rfl

/-- Byte lane `l` of a word packed from four bytes, the lowest lane last. -/
theorem byteLane_append (b : Nat → Byte) {l : Nat} (hl : l < 4) :
    (b 3 ++ b 2 ++ b 1 ++ b 0).toNat / 256 ^ l % 256 = (b l).toNat := by
  simp only [toNat_append_eq_add]
  have h (j : Nat) := (b j).isLt
  have := h 0; have := h 1; have := h 2; have := h 3
  interval_cases l <;> omega

/-- The lane of a digest register holds its character (10_state.md R36). -/
theorem State.dighex_lane (s : State) {k : Nat} (hk : k < 8) :
    (if k < 4 then s.dighex0 else s.dighex1).toNat / 256 ^ (k % 4) % 256 = (s.hexChar k).toNat := by
  split
  · rename_i hlow
    rw [Nat.mod_eq_of_lt hlow]
    exact byteLane_append s.hexChar hlow
  · rw [show k % 4 = k - 4 by omega]
    refine (byteLane_append (fun l => s.hexChar (l + 4)) (by omega)).trans ?_
    rw [Nat.sub_add_cancel (by omega)]

/-- Settles O16: each lane holds its character, and the character is that of its hex digit. -/
theorem dighexLanes : Obligations.DighexLanes := by
  intro s k hk
  rw [s.dighex_lane hk, State.hexChar, hexDigit_toNat, hexNibble_toNat _ hk]
  rfl

end Sys2Proof.Machine
end

section
/-! What fault entry and the register commands can do (60_exceptions.md R210; 10_state.md R39), one inversion lemma per buffer or register. -/

namespace Sys2Proof.Machine

/-- Fault entry writes the three fields of the fault record at most. -/
theorem State.raise_eq_update (s : State) (cause : Cause) (info : Word) :
    ∃ f c a, s.raise cause info = { s with failed := f, cause := c, faddr := a } := by
  cases hf : s.failed
  · exact ⟨_, _, _, State.raise_of_running hf cause info⟩
  · exact ⟨_, _, _, State.raise_of_failed hf cause info⟩

@[simp] theorem ramp_length (bs : Nat) : (ramp bs).length = bs := by simp [ramp]

/-- The obfuscation pass changes bytes in place. -/
@[simp] theorem obfuscateLoop_length (bs : Nat) (pw : List Byte) (turns i k skipped : Nat) (ks : List Byte) :
    (obfuscateLoop bs pw turns i k skipped ks).length = ks.length := by
  induction turns generalizing i k skipped ks with
  | zero => rfl
  | succ turns ih =>
    unfold obfuscateLoop
    split
    · dsimp only
      split <;> rw [ih, List.length_modify]
    · rfl

/-- A generated keystream is one block long (40_password_keystream.md R112). -/
@[simp] theorem generate_length (bs : Nat) (pw : List Byte) : (generate bs pw).length = bs := by
  unfold generate obfuscate
  split <;> simp

section RegisterCommands
variable {s t : State} {i : Instr} (h : exec i s = .next t)
include h

/-- `PWCLR` and `PWPUSH` write the password, within its capacity, or overflow (40_password_keystream.md R110, R111). -/
theorem exec_password_cases (hi : i = .pwclr ∨ ∃ b, i = .pwpush b) :
    (∃ v, t = s.setPw v ∧ (s.pw.length ≤ s.pwMax → v.length ≤ s.pwMax)) ∨ t = s.raise .bufferOverflow 0 := by
  rcases hi with rfl | ⟨b, rfl⟩ <;> simp only [exec, execPwclr, execPwpush] at h <;>
    rcases command_eq_next h with ⟨-, rfl⟩ | ⟨-, rfl⟩
  · exact .inl ⟨t.pw, rfl, id⟩
  · exact .inl ⟨[], rfl, fun _ => Nat.zero_le _⟩
  · exact .inl ⟨t.pw, rfl, id⟩
  · split
    · exact .inr rfl
    · refine .inl ⟨_, rfl, fun hle => ?_⟩
      rw [List.length_append, List.length_singleton]
      omega

/-- `KSGEN`, `KSCLR` and `KSPUSH` write the keystream, within one block, or overflow (40_password_keystream.md R114, R119, R120). -/
theorem exec_keystream_cases (hi : i = .ksgen ∨ i = .ksclr ∨ ∃ b, i = .kspush b) :
    (∃ v, t = s.setKs v ∧ (s.ks.length ≤ s.bs → v.length ≤ s.bs)) ∨ t = s.raise .bufferOverflow 0 := by
  rcases hi with rfl | rfl | ⟨b, rfl⟩ <;> simp only [exec, execKsgen, execKsclr, execKspush] at h <;>
    rcases command_eq_next h with ⟨-, rfl⟩ | ⟨-, rfl⟩
  · exact .inl ⟨t.ks, rfl, id⟩
  · exact .inl ⟨_, rfl, fun _ => (generate_length _ _).le⟩
  · exact .inl ⟨t.ks, rfl, id⟩
  · exact .inl ⟨[], rfl, fun _ => Nat.zero_le _⟩
  · exact .inl ⟨t.ks, rfl, id⟩
  · split
    · exact .inr rfl
    · refine .inl ⟨_, rfl, fun hle => ?_⟩
      rw [List.length_append, List.length_singleton]
      omega

/-- `KSRD` writes a byte to `DATA`, or the index is out of range (40_password_keystream.md R121). -/
theorem exec_ksrd_cases (hi : ∃ n, i = .ksrd n) :
    (∃ v, t = s.setData v ∧ (s.data.toNat < 256 → v.toNat < 256)) ∨ t = s.raise .indexRange 0 := by
  obtain ⟨n, rfl⟩ := hi
  simp only [exec, execKsrd] at h
  rcases command_eq_next h with ⟨-, rfl⟩ | ⟨-, rfl⟩
  · exact .inl ⟨t.data, rfl, id⟩
  · split
    · exact .inr rfl
    · rename_i b _
      refine .inl ⟨_, rfl, fun _ => ?_⟩
      rw [BitVec.toNat_setWidth_of_le (by decide)]
      exact b.isLt

/-- `CRCINIT` and `CRCB` write the accumulator and never fault (42_checksum.md R151, R152). -/
theorem exec_crc_cases (hi : i = .crcinit ∨ ∃ b, i = .crcb b) : ∃ v, t = s.setCrc v := by
  rcases hi with rfl | ⟨b, rfl⟩ <;> simp only [exec, execCrcinit, execCrcb] at h <;>
    rcases command_eq_next h with ⟨-, rfl⟩ | ⟨-, rfl⟩
  · exact ⟨t.crc, rfl⟩
  · exact ⟨_, rfl⟩
  · exact ⟨t.crc, rfl⟩
  · exact ⟨_, rfl⟩

end RegisterCommands

/-- Settles O55: each command writes its own buffer or register, or raises. -/
theorem registerCommandsFrame : Obligations.RegisterCommandsFrame := by
  intro s t i h
  refine ⟨fun hi => ?_, fun hi => ?_, fun hi => ?_, fun hi => ?_⟩
  · rcases exec_password_cases h hi with ⟨v, rfl, -⟩ | rfl
    · rfl
    · obtain ⟨f, c, a, hr⟩ := s.raise_eq_update .bufferOverflow 0
      rw [hr]
  · rcases exec_keystream_cases h hi with ⟨v, rfl, -⟩ | rfl
    · rfl
    · obtain ⟨f, c, a, hr⟩ := s.raise_eq_update .bufferOverflow 0
      rw [hr]
  · rcases exec_ksrd_cases h hi with ⟨v, rfl, -⟩ | rfl
    · rfl
    · obtain ⟨f, c, a, hr⟩ := s.raise_eq_update .indexRange 0
      rw [hr]
  · obtain ⟨v, rfl⟩ := exec_crc_cases h hi
    rfl

end Sys2Proof.Machine
end

section
/-! What `ENC`, `DEC` and `CRCSCAN` can do (41_blockchain.md R133 to R142; 42_checksum.md R153): the register updates a traversal is made of, as one
relation. Every frame and invariant of the three commands is an induction over it. -/

namespace Sys2Proof.Machine

/-- The states that `i`, one of the three traversal commands, can reach from `s`: any number of its register updates, faults included, each with what
bounds it (which command may write the register, where memory may change, how long a keystream is). -/
inductive State.Traversed (s : State) (i : Instr) : State → Prop
  | start : s.Traversed i s
  | raise {u : State} {cause : Cause} (hu : s.Traversed i u) (hc : cause ≠ .noFault) (info : Word) :
      s.Traversed i (u.raise cause info)
  | setPass {u : State} (hu : s.Traversed i u) (p : Pass) : s.Traversed i (u.setPass p)
  | setBlkidx {u : State} {b : BitVec 8} (hu : s.Traversed i u) (hb : b.toNat ≤ 254) : s.Traversed i (u.setBlkidx b)
  | setCrc {u : State} (hu : s.Traversed i u) (hi : i ≠ .enc false ∧ i ≠ .dec false) (v : Word) :
      s.Traversed i (u.setCrc v)
  | setMem {u : State} {m : Mem} {j : Nat} (hu : s.Traversed i u) (hi : i ≠ .crcscan) (hj : j < s.blocks)
      (hm : u.mem.ChangedIn m (s.blockOffset j) s.bs) : s.Traversed i (u.setMem m)
  | setKs {u : State} {v : List Byte} (hu : s.Traversed i u) (hi : i ≠ .crcscan) (hv : v.length = s.ks.length) :
      s.Traversed i (u.setKs v)

namespace State.Traversed

variable {s t : State} {i : Instr}

/-- Nothing but memory, the keystream, `CRC`, `PASS`, `BLKIDX` and the fault record changes (10_state.md R39). -/
theorem frame (h : s.Traversed i t) : t = { s with
    mem := t.mem, ks := t.ks, crc := t.crc, pass := t.pass, blkidx := t.blkidx
    failed := t.failed, cause := t.cause, faddr := t.faddr } := by
  induction h with
  | start => rfl
  | @raise u cause _ _ info ih =>
    obtain ⟨f, c, a, hr⟩ := u.raise_eq_update cause info
    rw [hr]
    exact congrArg (fun u : State => { u with failed := f, cause := c, faddr := a }) ih
  | setPass _ p ih => exact congrArg (·.setPass p) ih
  | @setBlkidx _ b _ _ ih => exact congrArg (·.setBlkidx b) ih
  | setCrc _ _ v ih => exact congrArg (·.setCrc v) ih
  | @setMem _ m _ _ _ _ _ ih => exact congrArg (·.setMem m) ih
  | @setKs _ v _ _ _ ih => exact congrArg (·.setKs v) ih

theorem bs_eq (h : s.Traversed i t) : t.bs = s.bs := by rw [h.frame]

theorem pwMax_eq (h : s.Traversed i t) : t.pwMax = s.pwMax := by rw [h.frame]

/-- `KSLEN` is kept (10_state.md R39). -/
theorem ks_length (h : s.Traversed i t) : t.ks.length = s.ks.length := by
  induction h with
  | start => rfl
  | setKs _ _ hv _ => exact hv
  | raise _ _ _ ih => rwa [State.raise_ks]
  | setPass _ _ ih | setBlkidx _ _ ih | setCrc _ _ _ ih | setMem _ _ _ _ ih => exact ih

/-- Memory outside the windows is kept (41_blockchain.md R130). -/
theorem mem_outside (h : s.Traversed i t) {a : Nat} (ha : ¬s.InWindows a) : t.mem.byteAt a = s.mem.byteAt a := by
  induction h with
  | start => rfl
  | @setMem u m j _ _ hj hm ih =>
    have hout : ¬s.InBlock j a := fun hin => ha ⟨j, hj, hin⟩
    unfold State.InBlock at hout
    exact (hm.outside a (by omega)).trans ih
  | raise _ _ _ ih => rwa [State.raise_mem]
  | setPass _ _ ih | setBlkidx _ _ ih | setCrc _ _ _ ih | setKs _ _ _ ih => exact ih

/-- Uncoupled, `ENC` and `DEC` keep `CRC` (41_blockchain.md R142). -/
theorem crc_uncoupled (h : s.Traversed i t) (hi : i = .enc false ∨ i = .dec false) : t.crc = s.crc := by
  induction h with
  | start => rfl
  | setCrc _ hne _ _ => exact (hi.elim hne.1 hne.2).elim
  | raise _ _ _ ih => rwa [State.raise_crc]
  | setPass _ _ ih | setBlkidx _ _ ih | setMem _ _ _ _ ih | setKs _ _ _ ih => exact ih

/-- `CRCSCAN` writes neither memory nor the keystream (42_checksum.md R153). -/
theorem crcscan_reads_only (h : s.Traversed .crcscan t) : t.mem = s.mem ∧ t.ks = s.ks := by
  induction h with
  | start => exact ⟨rfl, rfl⟩
  | setMem _ hi _ _ _ | setKs _ hi _ _ => exact absurd rfl hi
  | raise _ _ _ ih => rwa [State.raise_mem, State.raise_ks]
  | setPass _ _ ih | setBlkidx _ _ ih | setCrc _ _ _ ih => exact ih

/-- The chain update of a coupled or uncoupled transform. -/
theorem chain {c : Bool} {ct : List Byte} (h : s.Traversed i t) (hi : i ≠ .crcscan)
    (hc : c = true → i ≠ .enc false ∧ i ≠ .dec false) (hct : ct.length = s.ks.length) :
    s.Traversed i (Machine.chain c ct t) := by
  cases c
  · exact h.setKs hi hct
  · exact (h.setKs hi hct).setCrc (hc rfl) _

end State.Traversed

/-- A pass has at most 255 blocks, so `BLKIDX` is at most 254 (10_state.md R31, R38). -/
theorem State.blockIndex_toNat_le {s : State} {j : Nat} (hj : j < s.blocks) :
    (BitVec.ofNat 8 (s.blockIndex j)).toNat ≤ 254 := by
  have hb := s.bcnt.isLt
  unfold State.blocks at hj
  rw [BitVec.toNat_ofNat]
  unfold State.blockIndex
  split <;> omega

/-- Everything one block of a transform with a ready keystream can do, in either direction. -/
theorem xorBlock_cases (enc c : Bool) (off : Nat) {s : State} (hks : s.ks.length = s.bs) :
    (∃ m ct, xorBlock enc c off s = .ok (chain c ct (s.setMem m)) ∧ ct.length = s.ks.length ∧
      s.mem.ChangedIn m off s.bs) ∨
    (∃ m cause a, cause ≠ .noFault ∧ xorBlock enc c off s = .error ((s.setMem m).raise cause a) ∧
      s.mem.ChangedIn m off s.bs) := by
  have payloadFault {cause : Cause} (hc : cause = .invalidStreamRead ∨ cause = .invalidStreamWrite) :
      cause ≠ .noFault := by
    rcases hc with rfl | rfl <;> decide
  cases enc
  · rcases decBlock_cases c off s with ⟨m, ct, hb, hl, hm⟩ | ⟨m, cause, a, hc, hb, hm⟩
    · exact .inl ⟨m, ct, hb, hl.trans hks.symm, hm⟩
    · exact .inr ⟨m, cause, a, payloadFault hc, hb, hm⟩
  · rcases encBlock_cases c off s with ⟨m, ct, hb, hl, hm⟩ | ⟨m, cause, a, hc, hb, hm⟩
    · exact .inl ⟨m, ct, hb, by omega, hm⟩
    · exact .inr ⟨m, cause, a, payloadFault hc, hb, hm⟩

section TraversalCommands
variable {s : State} {i : Instr}

/-- If every block stays in the relation, completing or stopping, so does the traversal. -/
theorem traverseWindows_traversed {block : Nat → State → Except State State}
    (hblock : ∀ j u v, j < s.blocks → s.Traversed i u →
      (block (s.blockOffset j) u = .ok v ∨ block (s.blockOffset j) u = .error v) → s.Traversed i v) :
    s.Traversed i (traverseWindows block s) :=
  traverseWindows_keeps .start (fun _ p hu => hu.setPass p)
    (fun j _ v hj hu hb => hblock j _ v hj (hu.setBlkidx (State.blockIndex_toNat_le hj)) (.inl hb))
    fun j _ v hj hu hb => hblock j _ v hj (hu.setBlkidx (State.blockIndex_toNat_le hj)) (.inr hb)

/-- One block of `CRCSCAN` writes the accumulator or raises. -/
theorem scanBlock_traversed {off : Nat} {u v : State} (hu : s.Traversed .crcscan u)
    (h : scanBlock off u = .ok v ∨ scanBlock off u = .error v) : s.Traversed .crcscan v := by
  rcases scanBlock_cases off u with ⟨crc, hb⟩ | ⟨a, hb⟩ <;> rw [hb] at h
  · obtain rfl : u.setCrc crc = v := by simpa using h
    exact hu.setCrc (by decide) crc
  · obtain rfl : u.raise .invalidStreamRead a = v := by simpa using h
    exact hu.raise (by decide) a

/-- One block of `ENC` or `DEC` writes its own bytes, then either advances the chain or raises. -/
theorem xorBlock_traversed {enc c : Bool} (hks : s.ks.length = s.bs) (hi : i ≠ .crcscan)
    (hc : c = true → i ≠ .enc false ∧ i ≠ .dec false) {j : Nat} {u v : State} (hj : j < s.blocks) (hu : s.Traversed i u)
    (h : xorBlock enc c (s.blockOffset j) u = .ok v ∨ xorBlock enc c (s.blockOffset j) u = .error v) :
    s.Traversed i v := by
  have hready : u.ks.length = u.bs := by rw [hu.ks_length, hu.bs_eq, hks]
  rcases xorBlock_cases enc c (s.blockOffset j) hready with ⟨m, ct, hb, hl, hm⟩ | ⟨m, cause, a, hf, hb, hm⟩ <;>
    rw [hb] at h <;> rw [hu.bs_eq] at hm
  · obtain rfl : chain c ct (u.setMem m) = v := by simpa using h
    exact (hu.setMem hi hj hm).chain hi hc (hl.trans hu.ks_length)
  · obtain rfl : (u.setMem m).raise cause a = v := by simpa using h
    exact (hu.setMem hi hj hm).raise hf a

/-- A transform, with its two preconditions, stays in the relation. -/
theorem transform_traversed {enc c : Bool} (hi : i ≠ .crcscan) (hc : c = true → i ≠ .enc false ∧ i ≠ .dec false) :
    s.Traversed i (transform (xorBlock enc c) s) := by
  rcases transform_cases (xorBlock enc c) s with h | h | ⟨-, hks, h⟩ <;> rw [h]
  · exact .raise .start (by decide) 0
  · exact .raise .start (by decide) 0
  · exact traverseWindows_traversed fun _ _ _ => xorBlock_traversed hks hi hc

/-- Everything the three traversal commands can do, faulting or not, in every state. -/
theorem exec_traversed {t : State} (h : exec i s = .next t) (hi : (∃ c, i = .enc c ∨ i = .dec c) ∨ i = .crcscan) :
    s.Traversed i t := by
  rcases hi with ⟨c, rfl | rfl⟩ | rfl <;> simp only [exec, execEnc, execDec, execCrcscan] at h <;>
    rcases command_eq_next h with ⟨-, rfl⟩ | ⟨-, rfl⟩
  · exact .start
  · exact transform_traversed (enc := true) (c := c) nofun (by rintro rfl; decide)
  · exact .start
  · exact transform_traversed (enc := false) (c := c) nofun (by rintro rfl; decide)
  · exact .start
  · split
    · exact .raise .start (by decide) 0
    · exact traverseWindows_traversed fun _ _ _ _ => scanBlock_traversed

end TraversalCommands

/-- Settles O56, by the relation's frame lemmas. -/
theorem traversalCommandsFrame : Obligations.TraversalCommandsFrame := by
  intro s t i h
  refine ⟨fun hi => ?_, fun hi => ?_, ?_⟩
  · have ht := exec_traversed h (.inl hi)
    exact ⟨ht.frame, ht.ks_length, fun _ ha => ht.mem_outside ha⟩
  · exact (exec_traversed h (.inl ⟨false, hi⟩)).crc_uncoupled hi
  · rintro rfl
    have ht := exec_traversed h (.inr rfl)
    obtain ⟨hmem, hks⟩ := ht.crcscan_reads_only
    exact ht.frame.trans (by rw [hmem, hks])

end Sys2Proof.Machine
end

section
/-! The invariant of 10_state.md R38: what each register update asks of its value to keep it, then the commands, the host's accesses, and the step. -/

namespace Sys2Proof.Machine

namespace State.Inv

variable {s : State} (h : s.Inv)
include h

theorem setKs {v : List Byte} (hv : v.length ≤ s.bs) : (s.setKs v).Inv := { h with ks_le := hv }

theorem setPw {v : List Byte} (hv : v.length ≤ s.pwMax) : (s.setPw v).Inv := { h with pw_le := hv }

theorem setPass (p : Pass) : (s.setPass p).Inv := { h with }

theorem setBlkidx {b : BitVec 8} (hb : b.toNat ≤ 254) : (s.setBlkidx b).Inv := { h with blkidx_le := hb }

theorem setPlen (v : Word) : (s.setPlen v).Inv := { h with }

theorem setBcnt {b : BitVec 8} (hb : b ≠ 0) : (s.setBcnt b).Inv := { h with bcnt_ne_zero := hb }

theorem setCrc (v : Word) : (s.setCrc v).Inv := { h with }

theorem setData {v : Word} (hv : v.toNat < 256) : (s.setData v).Inv := { h with data_lt := hv }

theorem setMem {m : Mem} (hm : m.wf) : (s.setMem m).Inv := { h with mem_wf := hm }

theorem setHost (v : List HostEvent) : (s.setHost v).Inv := { h with }

theorem answer (v : Word) : (s.answer v).Inv := { h with }

/-- Fault entry with a cause of R200: only the two payload causes record an offset (60_exceptions.md R210). -/
theorem raise {cause : Cause} (hc : cause ≠ .noFault) (info : Word) : (s.raise cause info).Inv := by
  cases hf : s.failed
  · rw [State.raise_of_running hf]
    refine { h with cause_iff := iff_of_false hc Bool.true_eq_false.mp, faddr_zero := fun hread hwrite => if_neg ?_ }
    cases cause with
    | invalidStreamRead => exact absurd rfl hread
    | invalidStreamWrite => exact absurd rfl hwrite
    | _ => exact Bool.false_ne_true
  · rwa [State.raise_of_failed hf]

/-- `CLEAR` (43_control.md R170). -/
theorem clear {t : State} (ht : execClear s = .next t) : t.Inv := by
  cases ht
  exact { h with
    ks_le := Nat.zero_le _, pw_le := Nat.zero_le _, blkidx_le := Nat.zero_le _, cause_iff := iff_of_true rfl rfl
    faddr_zero := fun _ _ => rfl, data_lt := Nat.zero_lt_succ 255 }

/-- The reset input (70_reset_and_hazards.md R231). -/
theorem resetRegisters : s.resetRegisters.Inv :=
  { h with
    ks_le := Nat.zero_le _, pw_le := Nat.zero_le _, bcnt_ne_zero := (by decide : (1 : BitVec 8) ≠ 0), blkidx_le := Nat.zero_le _
    cause_iff := iff_of_true rfl rfl, faddr_zero := fun _ _ => rfl, data_lt := Nat.zero_lt_succ 255 }

/-- Every update of a traversal command keeps the invariant. -/
theorem traversed {i : Instr} {t : State} (ht : s.Traversed i t) : t.Inv := by
  induction ht with
  | start => exact h
  | raise _ hc info ih => exact ih.raise hc info
  | setPass _ p ih => exact ih.setPass p
  | setBlkidx _ hb ih => exact ih.setBlkidx hb
  | setCrc _ _ v ih => exact ih.setCrc v
  | setMem _ _ _ hm ih => exact ih.setMem (hm.wf ih.mem_wf)
  | setKs hu _ hv ih => exact ih.setKs (by rw [hv, hu.bs_eq]; exact h.ks_le)

end State.Inv

/-- What a step must give: the invariant, in a block of the same build-time parameters (00_scope.md R7, R8). -/
def State.KeepsInv (s t : State) : Prop := t.Inv ∧ t.bs = s.bs ∧ t.pwMax = s.pwMax

section StepKeepsInv
variable {s t : State} (hs : s.Inv)
include hs

theorem State.Inv.keepsInv_self : s.KeepsInv s := ⟨hs, rfl, rfl⟩

theorem State.Inv.keepsInv_raise {cause : Cause} (hc : cause ≠ .noFault) (info : Word) :
    s.KeepsInv (s.raise cause info) :=
  ⟨hs.raise hc info, s.raise_bs cause info, s.raise_pwMax cause info⟩

/-- Every command keeps the invariant. -/
theorem exec_keepsInv {i : Instr} (h : exec i s = .next t) : s.KeepsInv t := by
  have password (hi : i = .pwclr ∨ ∃ b, i = .pwpush b) : s.KeepsInv t := by
    rcases exec_password_cases h hi with ⟨v, rfl, hv⟩ | rfl
    · exact ⟨hs.setPw (hv hs.pw_le), rfl, rfl⟩
    · exact hs.keepsInv_raise (by decide) 0
  have keystream (hi : i = .ksgen ∨ i = .ksclr ∨ ∃ b, i = .kspush b) : s.KeepsInv t := by
    rcases exec_keystream_cases h hi with ⟨v, rfl, hv⟩ | rfl
    · exact ⟨hs.setKs (hv hs.ks_le), rfl, rfl⟩
    · exact hs.keepsInv_raise (by decide) 0
  have crc (hi : i = .crcinit ∨ ∃ b, i = .crcb b) : s.KeepsInv t := by
    obtain ⟨v, rfl⟩ := exec_crc_cases h hi
    exact ⟨hs.setCrc v, rfl, rfl⟩
  have traversal (hi : (∃ c, i = .enc c ∨ i = .dec c) ∨ i = .crcscan) : s.KeepsInv t :=
    have ht := exec_traversed h hi
    ⟨hs.traversed ht, ht.bs_eq, ht.pwMax_eq⟩
  cases i with
  | clear => exact ⟨hs.clear h, by cases h; rfl, by cases h; rfl⟩
  | pwclr => exact password (.inl rfl)
  | pwpush b => exact password (.inr ⟨b, rfl⟩)
  | ksgen => exact keystream (.inl rfl)
  | ksclr => exact keystream (.inr (.inl rfl))
  | kspush b => exact keystream (.inr (.inr ⟨b, rfl⟩))
  | ksrd n =>
    rcases exec_ksrd_cases h ⟨n, rfl⟩ with ⟨v, rfl, hv⟩ | rfl
    · exact ⟨hs.setData (hv hs.data_lt), rfl, rfl⟩
    · exact hs.keepsInv_raise (by decide) 0
  | enc c => exact traversal (.inl ⟨c, .inl rfl⟩)
  | dec c => exact traversal (.inl ⟨c, .inr rfl⟩)
  | crcinit => exact crc (.inl rfl)
  | crcb b => exact crc (.inr ⟨b, rfl⟩)
  | crcscan => exact traversal (.inr rfl)

/-- Any word written to `CMD` keeps the invariant, decoded or not. -/
theorem execute_keepsInv {w : Word} (h : execute w s = .next t) : s.KeepsInv t := by
  unfold execute at h
  split at h
  · cases h
    exact hs.keepsInv_self
  · split at h
    · cases h
      exact hs.keepsInv_raise (by decide) 0
    · exact exec_keepsInv hs h

/-- Any register write keeps the invariant (10_state.md R26, R34). -/
theorem accessWrite_keepsInv {n : BitVec 6} {v : Word} (h : accessWrite n v s = .next t) : s.KeepsInv t := by
  unfold accessWrite at h
  split at h
  · cases h
    exact ⟨hs.setPlen v, rfl, rfl⟩
  · cases h
    exact ⟨hs.setBcnt (clampBcnt_ne_zero v), rfl, rfl⟩
  · exact execute_keepsInv hs h
  · cases h
    exact hs.keepsInv_raise (by decide) 0

/-- Any register read keeps the invariant. -/
theorem accessRead_keepsInv (n : BitVec 6) : s.KeepsInv (accessRead n s) := by
  unfold accessRead
  split
  · exact ⟨hs.answer _, rfl, rfl⟩
  · obtain ⟨hinv, hbs, hpwMax⟩ := hs.keepsInv_raise (cause := .illegalAccess) (by decide) 0
    exact ⟨hinv.answer 0, hbs, hpwMax⟩

/-- Every event of the outside world keeps the invariant. -/
theorem hostEvent_keepsInv {e : HostEvent} (h : hostEvent e s = .next t) : s.KeepsInv t := by
  cases e with
  | read n =>
    cases h
    exact accessRead_keepsInv hs n
  | write n v => exact accessWrite_keepsInv hs h
  | payPut off v =>
    cases h
    exact ⟨hs.setMem (Mem.wf_put hs.mem_wf off.isLt v), rfl, rfl⟩
  | payDrop off =>
    cases h
    exact ⟨hs.setMem (Mem.wf_drop hs.mem_wf off.toNat), rfl, rfl⟩
  | reset =>
    cases h
    exact ⟨hs.resetRegisters, rfl, rfl⟩

end StepKeepsInv

/-- Settles O21: a step is one event of the outside world, or none. -/
theorem stepKeepsInvariant : Obligations.StepKeepsInvariant := by
  intro s t hs h
  cases hhost : s.host with
  | nil =>
    rw [step_of_host_nil hhost] at h
    cases h
    exact hs.keepsInv_self
  | cons e rest =>
    rw [step_of_host_cons hhost] at h
    have hkeeps : (s.setHost rest).KeepsInv t := hostEvent_keepsInv (hs.setHost rest) h
    exact hkeeps

/-- Settles O20: the parameters of Config are in range by their types. -/
theorem resetMeetsInvariant : Obligations.ResetMeetsInvariant where
  bs_pos := Nat.le_add_left 1 _
  bs_le := Config.blockSizeLess1.isLt
  pwMax_pos := Nat.le_add_left 1 _
  pwMax_lt := Nat.succ_lt_succ Config.pwMaxLess1.isLt
  ks_le := Nat.zero_le _
  pw_le := Nat.zero_le _
  bcnt_ne_zero := by decide
  blkidx_le := Nat.zero_le _
  cause_iff := iff_of_true rfl rfl
  faddr_zero _ _ := rfl
  data_lt := by decide
  mem_wf := ⟨.nil, nofun⟩

end Sys2Proof.Machine
end

section
/-! Payload memory (20_memory.md): the engine's two accesses outside the Failed state (R63, R64), and what a command can do to payload memory and its
backing (R61, R65; 41_blockchain.md R130). -/

namespace Sys2Proof.Machine

/-- A raise with a cause that records an offset, outside the Failed state (60_exceptions.md R210). -/
theorem State.raise_eq_faulted {s : State} {cause : Cause} (hs : s.failed = false) (hc : cause.recordsOffset = true)
    (info : Word) : s.raise cause info = s.faulted cause info := by
  rw [State.raise_of_running hs, if_pos hc, State.faulted]

/-- Settles O50, by the two outcomes of `MemRead`. -/
theorem memReadOfBackedOffset : Obligations.MemReadOfBackedOffset := by
  intro s off hs
  rcases s.memRead_cases off with ⟨b, hb, hread⟩ | ⟨hbacked, hread⟩
  · refine ⟨fun b' hb' => ?_, fun hnot => ?_⟩
    · obtain rfl : b = b' := Option.some.inj (hb.symm.trans hb')
      exact hread
    · rw [State.readable, hb] at hnot
      cases hnot
  · refine ⟨fun b hb => ?_, fun _ => ?_⟩
    · rw [State.readable, hb] at hbacked
      cases hbacked
    · rw [hread, State.raise_eq_faulted hs rfl]

/-- Settles O51, by the two outcomes of `MemWrite`; the memory a write leaves is `Mem.write`'s. -/
theorem memWriteChangesOneByte : Obligations.MemWriteChangesOneByte := by
  intro s off v hs
  rcases s.memWrite_cases off v with ⟨hw, hwrite⟩ | ⟨hnot, hwrite⟩
  · refine ⟨fun _ => ⟨s.mem.write off v, hwrite, ?_, fun a ha => ?_⟩, fun hnot => ?_⟩
    · exact Mem.byteAt_write_same (State.readable_of_writable hw) v
    · exact Mem.byteAt_write_other s.mem ha v
    · exact absurd hw (Bool.eq_false_iff.1 hnot)
  · refine ⟨fun hw => absurd hw (Bool.eq_false_iff.1 hnot), fun _ => ?_⟩
    rw [hwrite, State.raise_eq_faulted hs rfl]

/-- The backed offsets are the listed ones (00_scope.md R10; log entry 2). -/
theorem Mem.backed_iff_mem_keys (m : Mem) (a : Nat) : (m.byteAt a).isSome ↔ a ∈ m.map (·.1) := by
  induction m with
  | nil => simp [Mem.byteAt]
  | cons cell m ih =>
    obtain ⟨b, w⟩ := cell
    by_cases hb : b = a
    · simp [Mem.byteAt, hb]
    · simp [Mem.byteAt, hb, Ne.symm hb, ← ih]

/-- Which offsets are listed settles which the engine can read. -/
theorem State.readable_congr {s t : State} (hkeys : t.mem.map (·.1) = s.mem.map (·.1)) (a : Nat) :
    t.readable a = s.readable a := by
  rw [Bool.eq_iff_iff, State.readable, State.readable, Mem.backed_iff_mem_keys, Mem.backed_iff_mem_keys, hkeys]

/-- The three traversal commands keep the list of backed offsets (20_memory.md R65). -/
theorem State.Traversed.mem_keys {s t : State} {i : Instr} (h : s.Traversed i t) :
    t.mem.map (·.1) = s.mem.map (·.1) := by
  induction h with
  | start => rfl
  | setMem _ _ _ hm ih => exact hm.keys.trans ih
  | raise _ _ _ ih => rwa [State.raise_mem]
  | setPass _ _ ih | setBlkidx _ _ ih | setCrc _ _ _ ih | setKs _ _ _ ih => exact ih

section Commands
variable {s t : State} {i : Instr} (h : exec i s = .next t)
include h

/-- A command other than `ENC` and `DEC` leaves payload memory and its read-only offsets alone. -/
theorem exec_keeps_payload (hi : ¬∃ c, i = .enc c ∨ i = .dec c) : t.mem = s.mem ∧ t.readOnly = s.readOnly := by
  have kept {u : State} (ht : t = u) (hmem : u.mem = s.mem) (hro : u.readOnly = s.readOnly) :
      t.mem = s.mem ∧ t.readOnly = s.readOnly := ht ▸ ⟨hmem, hro⟩
  obtain ⟨password, keystream, data, crc⟩ := registerCommandsFrame s t i h
  obtain ⟨-, -, scan⟩ := traversalCommandsFrame s t i h
  cases i with
  | clear => cases h; exact ⟨rfl, rfl⟩
  | pwclr => exact kept (password (.inl rfl)) rfl rfl
  | pwpush b => exact kept (password (.inr ⟨b, rfl⟩)) rfl rfl
  | ksgen => exact kept (keystream (.inl rfl)) rfl rfl
  | ksclr => exact kept (keystream (.inr (.inl rfl))) rfl rfl
  | kspush b => exact kept (keystream (.inr (.inr ⟨b, rfl⟩))) rfl rfl
  | ksrd n => exact kept (data ⟨n, rfl⟩) rfl rfl
  | enc c => exact absurd ⟨c, .inl rfl⟩ hi
  | dec c => exact absurd ⟨c, .inr rfl⟩ hi
  | crcinit => exact kept (crc (.inl rfl)) rfl rfl
  | crcb b => exact kept (crc (.inr ⟨b, rfl⟩)) rfl rfl
  | crcscan => exact kept (scan rfl) rfl rfl

/-- `ENC` and `DEC` leave payload memory alone when the size check fails (41_blockchain.md R134). -/
theorem exec_keeps_mem_of_not_fits (hi : ∃ c, i = .enc c ∨ i = .dec c) (hfit : ¬s.Fits) : t.mem = s.mem := by
  have refused (block : Nat → State → Except State State) : (transform block s).mem = s.mem := by
    rcases transform_cases block s with ht | ht | ⟨hfits, -, -⟩
    · rw [ht, State.raise_mem]
    · rw [ht, State.raise_mem]
    · exact absurd hfits hfit
  obtain ⟨c, rfl | rfl⟩ := hi <;> rcases command_eq_next h with ⟨-, rfl⟩ | ⟨-, rfl⟩
  · rfl
  · exact refused (encBlock c)
  · rfl
  · exact refused (decBlock c)

end Commands

/-- Settles O52: a transform's traversal keeps the listed offsets, the other commands all of memory; the read-only offsets are in every frame. -/
theorem commandsKeepBacking : Obligations.CommandsKeepBacking := by
  intro i s t h
  obtain ⟨hkeys, hro⟩ : t.mem.map (·.1) = s.mem.map (·.1) ∧ t.readOnly = s.readOnly := by
    by_cases hi : ∃ c, i = .enc c ∨ i = .dec c
    · have ht := exec_traversed h (.inl hi)
      exact ⟨ht.mem_keys, by rw [ht.frame]⟩
    · obtain ⟨hmem, hro⟩ := exec_keeps_payload h hi
      exact ⟨by rw [hmem], hro⟩
  have hread := State.readable_congr hkeys
  exact ⟨hkeys, fun a => ⟨hread a, State.writable_congr hread hro a⟩⟩

/-- Settles O53: a changed byte excludes, in turn, every other command, a failed size check and an offset outside the windows; a window that passed the
size check lies in the payload region. -/
theorem writesStayInTheWindows : Obligations.WritesStayInTheWindows := by
  intro i s t a h hchanged
  have hi : ∃ c, i = .enc c ∨ i = .dec c := by
    by_contra hi
    obtain ⟨hmem, -⟩ := exec_keeps_payload h hi
    exact hchanged (by rw [hmem])
  have hfit : s.Fits := by
    by_contra hfit
    exact hchanged (by rw [exec_keeps_mem_of_not_fits h hi hfit])
  have hwin : s.InWindows a := by
    by_contra hwin
    exact hchanged ((exec_traversed h (.inl hi)).mem_outside hwin)
  refine ⟨hi, hfit, hwin, ?_⟩
  obtain ⟨j, hj, -, hlt⟩ := hwin
  exact hlt.trans_le (State.blockOffset_add_le hfit hj)

end Sys2Proof.Machine
end

section
/-! The opcode map (30_encoding.md R86 to R91): decoding undoes encoding on the well-formed commands, and a row covers exactly the words of its command. -/

namespace Sys2Proof

/-- The op byte selects the format's decoder, which reads back its own word; the index of `KSRD` alone has to fit its field (R88). -/
theorem decode_encode_iff (i : Instr) : decode (encode i) = .ok i ↔ WellFormed i = true := by
  cases i with
  | ksrd idx24 =>
    have hread : decode (encode (.ksrd idx24)) = .ok (.ksrd (idx24 % 2 ^ 24)) := by simp [encode, decode]
    simp only [hread, WellFormed, Except.ok.injEq, Instr.ksrd.injEq, decide_eq_true_eq]
    omega
  | _ => simp [encode, decode, WellFormed]

/-- Settles O1, by the formats: each format's decoder reads back the word of its format. -/
theorem decodeOfEncode : Obligations.DecodeOfEncode := fun i hi => (decode_encode_iff i).mpr hi

/-- Settles O2: the word of the decoded command is the word read, so decoding it again gives the command, which only a well-formed one does. -/
theorem encodeOfDecode : Obligations.EncodeOfDecode := by
  intro w i h
  have hw : encode i = w := encode_of_decode h
  exact ⟨(decode_encode_iff i).mp (by rw [hw, h]), hw⟩

/-! The words a row covers. Every mask of R89 is ones above the operand bits of the format. -/

/-- What such a mask leaves of the word is the quotient by `2 ^ k`, `k` the number of operand bits. -/
theorem toNat_div_eq_of_covers {r : OpcodeRow} {w : Word} {k : Nat} (hmask : r.mask = BitVec.allOnes 32 <<< k)
    (h : r.covers w = true) : w.toNat / 2 ^ k = r.pattern.toNat / 2 ^ k := by
  have hand : w &&& r.mask = r.pattern := by simpa [OpcodeRow.covers] using h
  have hshift : w >>> k = r.pattern >>> k := by
    rw [← hand, hmask]
    ext n hn
    simp only [BitVec.getElem_ushiftRight, BitVec.getLsbD_and, BitVec.getLsbD_shiftLeft, BitVec.getLsbD_allOnes]
    by_cases hlt : k + n < 32
    · simp [hlt]; omega
    · rw [BitVec.getLsbD_of_ge w _ (by omega), Bool.false_and]
  simpa [Nat.shiftRight_eq_div_pow] using congrArg BitVec.toNat hshift

theorem eq_wordN_of_covers {name : String} {op : Byte} {w : Word}
    (h : OpcodeRow.covers ⟨name, wordN op, 0xFFFFFFFF⟩ w = true) : w = wordN op := by
  have hdiv : w.toNat / 2 ^ 0 = (wordN op).toNat / 2 ^ 0 := toNat_div_eq_of_covers rfl h
  exact BitVec.eq_of_toNat_eq (by simpa using hdiv)

theorem exists_wordB_of_covers {name : String} {op : Byte} {w : Word}
    (h : OpcodeRow.covers ⟨name, wordB op 0#8, 0xFFFFFF00⟩ w = true) : ∃ b, w = wordB op b := by
  have hdiv : w.toNat / 2 ^ 8 = (wordB op 0#8).toNat / 2 ^ 8 := toNat_div_eq_of_covers rfl h
  refine ⟨w.extractLsb' 0 8, BitVec.eq_of_toNat_eq ?_⟩
  rw [wordB_toNat, BitVec.toNat_zero] at hdiv
  rw [wordB_toNat, bits7_0_toNat]
  omega

theorem exists_wordX_of_covers {name : String} {op : Byte} {w : Word}
    (h : OpcodeRow.covers ⟨name, wordX op 0#24, 0xFF000000⟩ w = true) : ∃ a, w = wordX op a := by
  have hdiv : w.toNat / 2 ^ 24 = (wordX op 0#24).toNat / 2 ^ 24 := toNat_div_eq_of_covers rfl h
  refine ⟨argField w, BitVec.eq_of_toNat_eq ?_⟩
  rw [wordX_toNat, BitVec.toNat_zero] at hdiv
  rw [wordX_toNat, argField_toNat]
  omega

theorem exists_wordF_of_covers {name : String} {op : Byte} {w : Word}
    (h : OpcodeRow.covers ⟨name, wordF op false, 0xFFFFFFFE⟩ w = true) : ∃ c, w = wordF op c := by
  have hdiv : w.toNat / 2 ^ 1 = (wordF op false).toNat / 2 ^ 1 := toNat_div_eq_of_covers rfl h
  refine ⟨w.getLsbD 0, BitVec.eq_of_toNat_eq ?_⟩
  rw [wordF_toNat, Bool.toNat_false] at hdiv
  rw [wordF_toNat, bit0_eq]
  rcases Nat.mod_two_eq_zero_or_one w.toNat with hbit | hbit <;> simp [hbit] <;> omega

/-! The rows and the commands. -/

theorem mem_opcodeMap_iff {r : OpcodeRow} : r ∈ opcodeMap ↔ ∃ i, rowOf i = r := by
  constructor
  · intro h
    simp only [opcodeMap, List.mem_cons, List.not_mem_nil, or_false] at h
    rcases h with rfl | rfl | rfl | rfl | rfl | rfl | rfl | rfl | rfl | rfl | rfl | rfl <;> exact ⟨_, rfl⟩
  · rintro ⟨i, rfl⟩
    cases i <;> simp [opcodeMap, rowOf]

/-- The command's row covers its word (R89): the statements made per command in Laws/PerInstr. -/
theorem rowOf_covers_encode : ∀ i : Instr, (rowOf i).covers (encode i) = true
  | .clear => Laws.RowMatch.clear
  | .pwclr => Laws.RowMatch.pwclr
  | .pwpush b => Laws.RowMatch.pwpush b
  | .ksgen => Laws.RowMatch.ksgen
  | .ksclr => Laws.RowMatch.ksclr
  | .kspush b => Laws.RowMatch.kspush b
  | .ksrd n => Laws.RowMatch.ksrd n
  | .enc c => Laws.RowMatch.enc c
  | .dec c => Laws.RowMatch.dec c
  | .crcinit => Laws.RowMatch.crcinit
  | .crcb b => Laws.RowMatch.crcb b
  | .crcscan => Laws.RowMatch.crcscan

/-- A word that a command's row covers is the word of a command of that row, the operand being the word's own (R88). -/
theorem exists_encode_of_covers {i : Instr} {w : Word} (h : (rowOf i).covers w = true) :
    ∃ j, WellFormed j = true ∧ rowOf j = rowOf i ∧ encode j = w := by
  cases i with
  | clear => exact ⟨.clear, rfl, rfl, (eq_wordN_of_covers h).symm⟩
  | pwclr => exact ⟨.pwclr, rfl, rfl, (eq_wordN_of_covers h).symm⟩
  | pwpush _ => obtain ⟨b, rfl⟩ := exists_wordB_of_covers (op := 0x11) h; exact ⟨.pwpush b, rfl, rfl, rfl⟩
  | ksgen => exact ⟨.ksgen, rfl, rfl, (eq_wordN_of_covers h).symm⟩
  | ksclr => exact ⟨.ksclr, rfl, rfl, (eq_wordN_of_covers h).symm⟩
  | kspush _ => obtain ⟨b, rfl⟩ := exists_wordB_of_covers (op := 0x22) h; exact ⟨.kspush b, rfl, rfl, rfl⟩
  | ksrd _ =>
    obtain ⟨a, rfl⟩ := exists_wordX_of_covers (op := 0x23) h
    exact ⟨.ksrd a.toNat, decide_eq_true a.isLt, rfl, by simp [encode]⟩
  | enc _ => obtain ⟨c, rfl⟩ := exists_wordF_of_covers (op := 0x30) h; exact ⟨.enc c, rfl, rfl, rfl⟩
  | dec _ => obtain ⟨c, rfl⟩ := exists_wordF_of_covers (op := 0x31) h; exact ⟨.dec c, rfl, rfl, rfl⟩
  | crcinit => exact ⟨.crcinit, rfl, rfl, (eq_wordN_of_covers h).symm⟩
  | crcb _ => obtain ⟨b, rfl⟩ := exists_wordB_of_covers (op := 0x41) h; exact ⟨.crcb b, rfl, rfl, rfl⟩
  | crcscan => exact ⟨.crcscan, rfl, rfl, (eq_wordN_of_covers h).symm⟩

/-- Settles O3: a decoded word is the word of its command, which the command's row covers; a covered word is such a word, and decodes by O1. -/
theorem decodeIsTheOpcodeMap : Obligations.DecodeIsTheOpcodeMap := by
  refine fun w => ⟨fun i h => ⟨mem_opcodeMap_iff.mpr ⟨i, rfl⟩, ?_⟩, fun r hr hcov => ?_⟩
  · rw [← encode_of_decode h]
    exact rowOf_covers_encode i
  · obtain ⟨i, rfl⟩ := mem_opcodeMap_iff.mp hr
    obtain ⟨j, hwf, hrow, rfl⟩ := exists_encode_of_covers hcov
    exact ⟨j, decodeOfEncode j hwf, hrow⟩

/-- Settles O4: each row that covers the word is the row of the one command the word decodes to. -/
theorem opcodeRowsNeverOverlap : Obligations.OpcodeRowsNeverOverlap := by
  intro w r₁ r₂ hr₁ hr₂ hcov₁ hcov₂
  obtain ⟨-, hrow⟩ := decodeIsTheOpcodeMap w
  obtain ⟨i₁, hd₁, rfl⟩ := hrow r₁ hr₁ hcov₁
  obtain ⟨i₂, hd₂, rfl⟩ := hrow r₂ hr₂ hcov₂
  rw [Except.ok.inj (hd₁.symm.trans hd₂)]

/-- Settles O5, by running the decoder on the sixteen words. -/
theorem sampleWordsDecode : Obligations.SampleWordsDecode := by
  unfold Obligations.SampleWordsDecode
  decide

end Sys2Proof
end

section
/-! The closed form of the keystream (40_password_keystream.md R113, R116, R117): the loop of the obfuscation pass adds to each byte of the ramp what
the byte's position alone decides. -/

namespace Sys2Proof.Machine

/-- What the obfuscation pass adds at position `i` (R117): in each round of `2L + 1` positions the `L` password bytes in order at the even ones before
the last, nothing elsewhere. -/
def obfuscationByte (pw : List Byte) (i : Nat) : Byte :=
  if i % (2 * pw.length + 1) % 2 = 0 ∧ i % (2 * pw.length + 1) < 2 * pw.length then
    pw.getD (i % (2 * pw.length + 1) / 2) 0
  else 0

/-- The apply positions of a round. -/
theorem obfuscationByte_apply {pw : List Byte} {i k : Nat} (hk : k < pw.length)
    (hi : i % (2 * pw.length + 1) = 2 * k) : obfuscationByte pw i = pw.getD k 0 := by
  rw [obfuscationByte, hi, if_pos (by omega), Nat.mul_div_cancel_left k (by decide)]

/-- The skip positions of a round, the one of the extra shift among them. -/
theorem obfuscationByte_skip {pw : List Byte} {i : Nat}
    (hi : ¬(i % (2 * pw.length + 1) % 2 = 0 ∧ i % (2 * pw.length + 1) < 2 * pw.length)) : obfuscationByte pw i = 0 :=
  if_neg hi

/-- A password of zero bytes, or of none, adds nothing. -/
theorem obfuscationByte_of_zeros {pw : List Byte} (hpw : ∀ p ∈ pw, p = 0) (i : Nat) : obfuscationByte pw i = 0 := by
  unfold obfuscationByte
  split
  · rw [List.getD_eq_getElem _ _ (by omega)]
    exact hpw _ (List.getElem_mem _)
  · rfl

/-- A move of `d` positions that stays in the round. -/
theorem add_mod_of_mod_eq {i n r d : Nat} (hi : i % n = r) (hd : r + d < n) : (i + d) % n = r + d := by
  rw [← Nat.mod_add_mod, hi, Nat.mod_eq_of_lt hd]

/-- One turn of the loop: position `i` gets its byte, the positions skipped before the next one `i'` get nothing, the later ones are left to the turns
that follow. -/
theorem getElem?_modify_map_obfuscationByte {pw ks : List Byte} {i i' j : Nat} (hlt : i < i')
    (hskip : ∀ m, i < m → m < i' → obfuscationByte pw m = 0) :
    (ks.modify i (· + obfuscationByte pw i))[j]?.map (fun b => if i' ≤ j then b + obfuscationByte pw j else b) =
      ks[j]?.map fun b => if i ≤ j then b + obfuscationByte pw j else b := by
  rw [List.getElem?_modify]
  rcases Nat.lt_trichotomy j i with hj | rfl | hj
  · simp [show i ≠ j by omega, show ¬i ≤ j by omega, show ¬i' ≤ j by omega]
  · simp [show ¬i' ≤ j by omega, Function.comp_def]
  · by_cases hj' : j < i'
    · simp [hskip j hj hj', hj.ne]
    · simp [hj.ne, hj.le, show i' ≤ j by omega]

/-- The loop of R116 entered at an apply position, `2k` into its round, adds to every byte from there on what R117 says and keeps the bytes before it.
The index of the next password byte is the number of skips since the last extra shift. -/
theorem obfuscateLoop_getElem? {bs turns i k j : Nat} {pw ks : List Byte} (hk : k < pw.length)
    (hi : i % (2 * pw.length + 1) = 2 * k) (hturns : bs ≤ i + turns) (hj : j < bs) :
    (obfuscateLoop bs pw turns i k k ks)[j]? = ks[j]?.map fun b => if i ≤ j then b + obfuscationByte pw j else b := by
  induction turns generalizing i k ks with
  | zero => simp [obfuscateLoop, show ¬i ≤ j by omega]
  | succ turns ih =>
    by_cases hbs : i < bs
    · have hskip : ∀ m, i < m → m < i + 2 → obfuscationByte pw m = 0 := by
        intro m him hmi
        obtain rfl : m = i + 1 := by omega
        exact obfuscationByte_skip (by rw [add_mod_of_mod_eq hi (by omega)]; omega)
      simp only [obfuscateLoop, if_pos hbs, ← obfuscationByte_apply hk hi]
      split
      · rename_i hlast
        have hround : (i + 2 + 1) % (2 * pw.length + 1) = 2 * 0 := by
          rw [add_assoc, ← Nat.mod_add_mod, hi, show 2 * k + (2 + 1) = 2 * pw.length + 1 by omega, Nat.mod_self]
        have hshift : obfuscationByte pw (i + 2) = 0 :=
          obfuscationByte_skip (by rw [add_mod_of_mod_eq hi (by omega)]; omega)
        rw [hlast, Nat.mod_self, ih (by omega) hround (by omega)]
        refine getElem?_modify_map_obfuscationByte (by omega) fun m him hmi => ?_
        rcases Nat.lt_succ_iff_lt_or_eq.1 hmi with hlt | rfl
        · exact hskip m him hlt
        · exact hshift
      · have hnext : (i + 2) % (2 * pw.length + 1) = 2 * (k + 1) :=
          (add_mod_of_mod_eq hi (by omega)).trans (Nat.mul_succ 2 k).symm
        rw [Nat.mod_eq_of_lt (by omega), ih (by omega) hnext (by omega)]
        exact getElem?_modify_map_obfuscationByte (by omega) hskip
    · simp [obfuscateLoop, hbs, show ¬i ≤ j by omega]

theorem ramp_getElem? {bs i : Nat} (hi : i < bs) : (ramp bs)[i]? = some (BitVec.ofNat 8 i) := by
  simp [ramp, hi]

/-- R117 for every password: none adds nothing. -/
theorem generate_getElem? {bs i : Nat} (hi : i < bs) (pw : List Byte) :
    (generate bs pw)[i]? = some (BitVec.ofNat 8 i + obfuscationByte pw i) := by
  unfold generate
  split
  · rename_i hpw
    rw [obfuscate, obfuscateLoop_getElem? hpw (Nat.zero_mod _) (by omega) hi, ramp_getElem? hi, Option.map_some,
      if_pos (Nat.zero_le i)]
  · rename_i hpw
    rw [ramp_getElem? hi, obfuscationByte_skip (by omega), add_zero]

/-- Where the pass adds nothing the keystream is the ramp (R113). -/
theorem generate_getElem?_of_obfuscationByte_eq_zero {bs i : Nat} {pw : List Byte} (hi : i < bs)
    (h : obfuscationByte pw i = 0) : (generate bs pw)[i]? = some (BitVec.ofNat 8 i) := by
  rw [generate_getElem? hi, h, add_zero]

/-- `KSGEN` outside the Failed state (R114). -/
theorem exec_ksgen_of_running {s : State} (hs : s.failed = false) :
    exec .ksgen s = .next { s with ks := generate s.bs s.pw } := by
  rw [exec, execKsgen, command_of_running hs, State.setKs]

/-- Settles O26: at an apply position the byte added is the password's, at every other one it is 0. -/
theorem ksgenClosedForm : Obligations.KsgenClosedForm := by
  intro s hs _
  refine ⟨generate s.bs s.pw, exec_ksgen_of_running hs, generate_length _ _, fun i hi => ⟨fun happly => ?_, fun hskip => ?_⟩⟩
  · have hlt : i % (2 * s.pw.length + 1) / 2 < s.pw.length := by omega
    have hbyte : obfuscationByte s.pw i = s.pw[i % (2 * s.pw.length + 1) / 2] := by
      rw [obfuscationByte_apply hlt (by omega), List.getD_eq_getElem _ _ hlt]
    exact ⟨_, List.getElem?_eq_getElem hlt, by rw [generate_getElem? hi, hbyte]⟩
  · exact generate_getElem?_of_obfuscationByte_eq_zero hi (obfuscationByte_skip hskip)

/-- Settles O27: bytes that are 0 add nothing to the ramp. -/
theorem zeroPasswordIsTheRamp : Obligations.ZeroPasswordIsTheRamp := by
  intro s hs hpw
  exact ⟨generate s.bs s.pw, exec_ksgen_of_running hs, generate_length _ _, fun i hi =>
    generate_getElem?_of_obfuscationByte_eq_zero hi (obfuscationByte_of_zeros hpw i)⟩

/-- Settles O25: no password is one without a byte other than 0. -/
theorem ksgenWithoutPasswordIsTheRamp : Obligations.KsgenWithoutPasswordIsTheRamp := by
  intro s hs hpw
  exact zeroPasswordIsTheRamp s hs (by simp [hpw])

/-- Settles O28: `generate` takes `BLOCK_SIZE` and the password and nothing else. -/
theorem ksgenIsAFunctionOfPassword : Obligations.KsgenIsAFunctionOfPassword := by
  intro s t hs ht hbs hpw
  exact ⟨generate s.bs s.pw, exec_ksgen_of_running hs, by rw [exec_ksgen_of_running ht, hbs, hpw]⟩

end Sys2Proof.Machine
end

section
/-! The password and keystream buffers (40_password_keystream.md R110, R111, R119 to R121): clearing, pushing, reading back. -/

namespace Sys2Proof

/-- The words of format `B` of one `op` count up by `imm8` (30_encoding.md R87). -/
theorem wordB_eq_add (op b : Byte) : wordB op b = wordN op + b.setWidth 32 := by
  apply BitVec.eq_of_toNat_eq
  rw [wordB_toNat, BitVec.toNat_add, wordN_toNat, BitVec.toNat_setWidth]
  omega

/-- The words of format `X` of one `op` count up by `idx24` (30_encoding.md R87, R88). -/
theorem wordX_eq_add (op : Byte) {i : Nat} (hi : i < 2 ^ 24) :
    wordX op (BitVec.ofNat 24 i) = wordN op + BitVec.ofNat 32 i := by
  apply BitVec.eq_of_toNat_eq
  rw [wordX_toNat, BitVec.toNat_add, wordN_toNat, BitVec.toNat_ofNat, BitVec.toNat_ofNat]
  omega

namespace Machine

/-- A raise that records no offset, outside the Failed state (60_exceptions.md R210). -/
theorem State.raise_zero_eq_faulted {s : State} (hs : s.failed = false) (cause : Cause) :
    s.raise cause 0 = s.faulted cause 0 := by
  rw [State.raise_of_running hs, ite_self, State.faulted]

/-- Settles O23: the effect of `PWCLR`. -/
theorem pwclrEmptiesThePassword : Obligations.PwclrEmptiesThePassword := by
  refine ⟨by decide, fun s hs => ?_⟩
  rw [exec, execPwclr, command_of_running hs, State.setPw]

/-- Settles O24, by the two branches of `PWPUSH`. -/
theorem pwpushAppendsOrOverflows : Obligations.PwpushAppendsOrOverflows := by
  intro s b hs
  refine ⟨wordB_eq_add 0x11 b, fun hroom => ?_, fun hfull => ?_⟩ <;> rw [exec, execPwpush, command_of_running hs]
  · rw [if_neg hroom.ne, State.setPw]
  · rw [if_pos hfull, State.raise_zero_eq_faulted hs]

/-- Settles O29: an empty buffer is no block of at least one byte. -/
theorem ksclrDiscardsTheKeystream : Obligations.KsclrDiscardsTheKeystream := by
  refine ⟨by decide, fun s hs hbs => ⟨{ s with ks := [] }, ?_, rfl, ?_⟩⟩
  · rw [exec, execKsclr, command_of_running hs, State.setKs]
  · exact decide_eq_false (Nat.ne_of_lt hbs)

/-- Settles O30, by the two branches of `KSPUSH`; `KSRDY` compares the new length. -/
theorem kspushAppendsOrOverflows : Obligations.KspushAppendsOrOverflows := by
  intro s b hs
  refine ⟨wordB_eq_add 0x22 b, fun hroom => ⟨{ s with ks := s.ks ++ [b] }, ?_, rfl, ?_⟩, fun hfull => ?_⟩
  · rw [exec, execKspush, command_of_running hs, if_neg hroom.ne, State.setKs]
  · rw [State.ksrdy, decide_eq_true_iff, List.length_append, List.length_singleton]
  · rw [exec, execKspush, command_of_running hs, if_pos hfull, State.raise_zero_eq_faulted hs]

/-- Settles O31, by whether the keystream has a byte at the index. -/
theorem ksrdReadsDefinedBytesOnly : Obligations.KsrdReadsDefinedBytesOnly := by
  intro s i hs
  refine ⟨fun hi => wordX_eq_add 0x23 hi, fun hdefined => ?_, fun hbeyond => ?_⟩
  · have hb : s.ks[i]? = some s.ks[i] := List.getElem?_eq_getElem hdefined
    refine ⟨s.ks[i], hb, ?_⟩
    simp only [exec, execKsrd, command_of_running hs, hb, BitVec.ofNat_toNat, State.setData]
  · have hnone : s.ks[i]? = none := List.getElem?_eq_none hbeyond
    simp only [exec, execKsrd, command_of_running hs, hnone, State.raise_zero_eq_faulted hs]

end Machine
end Sys2Proof
end

section
/-! The run of `ENC`, `DEC` and `CRCSCAN` through the blocks of both windows (41_blockchain.md R131, R139 to R141; 42_checksum.md R153): where the
registers stand after `n` blocks, completing or stopping at a fault. -/

namespace Sys2Proof.Machine

/-- `BLKIDX` after `n` blocks of a traversal: the index of the last one (10_state.md R31). -/
def State.blkidxAfter (s : State) : Nat → BitVec 8
  | 0 => s.blkidx
  | n + 1 => BitVec.ofNat 8 (s.blockIndex n)

theorem State.bcnt_pos {s : State} (h : s.bcnt ≠ 0) : 0 < s.bcnt.toNat :=
  Nat.pos_of_ne_zero fun h0 => h (BitVec.eq_of_toNat_eq h0)

theorem State.blocks_pos {s : State} (h : s.bcnt ≠ 0) : 0 < s.blocks := Nat.mul_pos two_pos (State.bcnt_pos h)

theorem State.blkidxAfter_blocks {s : State} (h : s.bcnt ≠ 0) :
    s.blkidxAfter s.blocks = BitVec.ofNat 8 (s.bcnt.toNat - 1) := by
  have hpos := State.bcnt_pos h
  have hlast : s.blocks = s.bcnt.toNat + (s.bcnt.toNat - 1) + 1 := by unfold State.blocks; omega
  rw [hlast, State.blkidxAfter, State.blockIndex_bottom]

/-- `s` after a completed traversal that left this memory, keystream and `CRC` (41_blockchain.md R140). -/
def State.completed (s : State) (m : Mem) (ks : List Byte) (crc : Word) : State :=
  { s with mem := m, ks := ks, crc := crc, pass := .done, blkidx := s.blkidxAfter s.blocks }

/-- `PASS` and `BLKIDX` of a completed traversal of at least one block. -/
theorem State.completed_eq {s : State} (h : s.bcnt ≠ 0) (m : Mem) (ks : List Byte) (crc : Word) :
    s.completed m ks crc = { s with
      mem := m, ks := ks, crc := crc, pass := .done, blkidx := BitVec.ofNat 8 (s.bcnt.toNat - 1) } := by
  rw [State.completed, State.blkidxAfter_blocks h]

/-- `u` is `s` after `n` blocks of a traversal, in pass `p`: nothing but memory, the keystream, `CRC`, `PASS` and `BLKIDX` has changed. -/
def State.AtBlock (s : State) (p : Pass) (n : Nat) (u : State) : Prop :=
  u = { s with mem := u.mem, ks := u.ks, crc := u.crc, pass := p, blkidx := s.blkidxAfter n }

namespace State.AtBlock

variable {s u : State} {p : Pass} {n : Nat}

/-- A traversal starts in the top pass. -/
theorem start (s : State) : s.AtBlock .top 0 (s.setPass .top) := rfl

theorem setPass (h : s.AtBlock p n u) (q : Pass) : s.AtBlock q n (u.setPass q) := by
  have hset := congrArg (State.setPass · q) h
  exact hset

/-- Block `n` names itself in `BLKIDX` and writes memory, the keystream and `CRC`. -/
theorem next (h : s.AtBlock p n u) (m : Mem) (ks : List Byte) (crc : Word) :
    s.AtBlock p (n + 1) { u.setBlkidx (BitVec.ofNat 8 (s.blockIndex n)) with mem := m, ks := ks, crc := crc } := by
  have hset := congrArg (fun v : State => (((v.setBlkidx (BitVec.ofNat 8 (s.blockIndex n))).setMem m).setKs ks).setCrc crc) h
  exact hset

theorem bs_eq (h : s.AtBlock p n u) : u.bs = s.bs := by rw [h]

theorem readOnly_eq (h : s.AtBlock p n u) : u.readOnly = s.readOnly := by rw [h]

theorem failed_eq (h : s.AtBlock p n u) : u.failed = s.failed := by rw [h]

end State.AtBlock

/-- `s` after a traversal that stopped in block `j`: `PASS` and `BLKIDX` name the block, and the fault record is written (41_blockchain.md R139). -/
def State.stoppedIn (s : State) (j : Nat) (m : Mem) (ks : List Byte) (crc : Word) (cause : Cause) (a : Word) : State :=
  { s with
    mem := m, ks := ks, crc := crc, pass := s.blockPass j, blkidx := BitVec.ofNat 8 (s.blockIndex j)
    failed := true, cause := cause, faddr := a }

/-- A payload fault in block `j` outside the Failed state; `m` is memory with what the block has written. -/
theorem State.AtBlock.raise_payloadFault {s u : State} {j : Nat} {cause : Cause} (h : s.AtBlock (s.blockPass j) j u)
    (hs : s.failed = false) (hc : cause.recordsOffset = true) (m : Mem) (a : Word) :
    ((u.setBlkidx (BitVec.ofNat 8 (s.blockIndex j))).setMem m).raise cause a = s.stoppedIn j m u.ks u.crc cause a := by
  have hrun : ((u.setBlkidx (BitVec.ofNat 8 (s.blockIndex j))).setMem m).failed = false := h.failed_eq.trans hs
  have hset := congrArg (fun v : State => ((v.setBlkidx (BitVec.ofNat 8 (s.blockIndex j))).setMem m).faulted cause a) h
  rw [State.raise_eq_faulted hrun hc]
  exact hset

section Transform
variable {s : State} (enc c : Bool) (hs : s.failed = false) (hfit : s.Fits) (hks : s.ks.length = s.bs)
include hs hfit hks

/-- When every offset of the windows takes it, a transform completes, its blocks running one after the other. -/
theorem exec_transform_completes (hw : s.WindowsWritable) :
    ∃ m ks crc, s.Chained enc c s.blocks m ks crc ∧
      exec (if enc then .enc c else .dec c) s = .next (s.completed m ks crc) := by
  obtain ⟨t, ht, hch, hat⟩ := traverseWindows_ok (block := xorBlock enc c)
    (P := fun p n u => s.Chained enc c n u.mem u.ks u.crc ∧ s.AtBlock p n u)
    ⟨.zero, .start s⟩ (fun u ⟨hch, hat⟩ => ⟨hch, hat.setPass .bottom⟩) fun j u hj ⟨hch, hat⟩ => by
      obtain ⟨m, ks, crc, hb, hnext⟩ := State.Chained.step
        (u := u.setBlkidx (BitVec.ofNat 8 (s.blockIndex j))) hch hks hat.bs_eq hat.readOnly_eq
        fun i hi => hw _ (State.inWindows_of_block hj hi)
      exact ⟨_, hb, hnext, hat.next m ks crc⟩
  refine ⟨t.mem, t.ks, t.crc, hch, ?_⟩
  have hdone : t.setPass .done = s.completed t.mem t.ks t.crc := hat.setPass .done
  rw [exec_transform enc c hs hfit hks, ht, hdone]

/-- A transform whose blocks before block `j` take every write stops as block `j` stops. -/
theorem exec_transform_fault {j : Nat} (hj : j < s.blocks)
    (hw : ∀ j' < j, ∀ l < s.bs, s.writable (s.blockOffset j' + l) = true) {Q : State → Prop}
    (hfault : ∀ u, s.Chained enc c j u.mem u.ks u.crc → s.AtBlock (s.blockPass j) j u →
      ∃ v, xorBlock enc c (s.blockOffset j) (u.setBlkidx (BitVec.ofNat 8 (s.blockIndex j))) = .error v ∧ Q v) :
    ∃ t, exec (if enc then .enc c else .dec c) s = .next t ∧ Q t := by
  refine ⟨_, exec_transform enc c hs hfit hks, ?_⟩
  refine traverseWindows_fault (P := fun p n u => s.Chained enc c n u.mem u.ks u.crc ∧ s.AtBlock p n u) hj
    ⟨.zero, .start s⟩ (fun u ⟨hch, hat⟩ => ⟨hch, hat.setPass .bottom⟩) (fun i u hi ⟨hch, hat⟩ => ?_)
    fun u ⟨hch, hat⟩ => hfault u hch hat
  obtain ⟨m, ks, crc, hb, hnext⟩ := State.Chained.step
    (u := u.setBlkidx (BitVec.ofNat 8 (s.blockIndex i))) hch hks hat.bs_eq hat.readOnly_eq (hw i hi)
  exact ⟨_, hb, hnext, hat.next m ks crc⟩

end Transform

/-- When every offset of the windows can be read, a scan folds both windows in traversal order (42_checksum.md R153). -/
theorem exec_crcscan_completes {s : State} (hs : s.failed = false) (hfit : s.Fits) (hr : s.WindowsReadable) :
    exec .crcscan s = .next (s.completed s.mem s.ks (crcFoldBytes s.crc (s.blockBytes s.mem s.blocks))) := by
  obtain ⟨t, ht, hmem, hkeys, hcrc, hat⟩ := traverseWindows_ok (block := scanBlock)
    (P := fun p n u => u.mem = s.mem ∧ u.ks = s.ks ∧ u.crc = crcFoldBytes s.crc (s.blockBytes s.mem n) ∧ s.AtBlock p n u)
    ⟨rfl, rfl, rfl, .start s⟩ (fun u ⟨hmem, hkeys, hcrc, hat⟩ => ⟨hmem, hkeys, hcrc, hat.setPass .bottom⟩)
    fun j u hj ⟨hmem, hkeys, hcrc, hat⟩ => by
      have hread : ∀ i < u.bs, u.readable (s.blockOffset j + i) = true := fun i hi => by
        rw [hat.bs_eq] at hi
        rw [State.readable, hmem]
        exact hr _ (State.inWindows_of_block hj hi)
      obtain ⟨bytes, hb, hl, hbytes⟩ := scanBlock_ok (s := u.setBlkidx (BitVec.ofNat 8 (s.blockIndex j))) hread
      simp only [State.setBlkidx_bs, State.setBlkidx_mem, hat.bs_eq, hmem] at hl hbytes
      refine ⟨_, hb, hmem, hkeys, ?_, hat.next u.mem u.ks _⟩
      rw [State.blockBytes_succ, crcFoldBytes_append, Mem.bytesAt_eq hl hbytes, ← hcrc]
      rfl
  have hscan : exec .crcscan s = .next (traverseWindows scanBlock s) := by
    rw [exec, execCrcscan, command_of_running hs, State.windowTooLarge_eq_false.2 hfit]
    rfl
  have hdone : t.setPass .done = s.completed t.mem t.ks t.crc := hat.setPass .done
  rw [hscan, ht, hdone, hmem, hkeys, hcrc]

end Sys2Proof.Machine
end

section
/-! `ENC` and `DEC` that complete (41_blockchain.md R131, R132, R136 to R138, R140 to R143): the recurrence of the blocks, its closed form when the
windows do not overlap, and what the two commands make of each other's output. -/

namespace Sys2Proof.Machine

/-- An offset of the windows is a byte of a block. -/
theorem State.InWindows.exists_block {s : State} {a : Nat} (h : s.InWindows a) :
    ∃ j < s.blocks, ∃ i < s.bs, a = s.blockOffset j + i := by
  obtain ⟨j, hj, hle, hlt⟩ := h
  exact ⟨j, hj, a - s.blockOffset j, by omega, by omega⟩

/-- A byte outside the windows is as it was. -/
theorem State.Chained.mem_outside_windows {s : State} {enc c : Bool} {n : Nat} {m : Mem} {ks : List Byte} {crc : Word}
    (h : s.Chained enc c n m ks crc) (hn : n ≤ s.blocks) {a : Nat} (ha : ¬s.InWindows a) : m.byteAt a = s.mem.byteAt a :=
  h.mem_outside fun j hj hin => ha ⟨j, by omega, hin⟩

theorem State.Chained.crc_of_uncoupled {s : State} {enc c : Bool} {n : Nat} {m : Mem} {ks : List Byte} {crc : Word}
    (h : s.Chained enc c n m ks crc) (hc : c = false) : crc = s.crc := by
  subst hc
  exact h.crc_uncoupled

/-- Settles O40: the recurrence of `exec_transform_completes` and what it keeps. -/
theorem encCompletes : Obligations.EncCompletes := by
  intro s c hs hbcnt hfit hks hw
  obtain ⟨m, ks, crc, hch, hexec⟩ := exec_transform_completes true c hs hfit hks hw
  rw [State.completed_eq hbcnt] at hexec
  have hpos : 0 < s.blocks := State.blocks_pos hbcnt
  exact ⟨m, ks, crc, hch, hexec, hch.ks_length hks, fun i hi => hch.enc_ks hpos hi, hch.crc_of_uncoupled,
    fun a ha => hch.mem_outside_windows le_rfl ha⟩

/-- Settles O41: the same for `DEC`, whose captured ciphertext is the keystream. -/
theorem decCompletes : Obligations.DecCompletes := by
  intro s c hs hbcnt hfit hks hw
  obtain ⟨m, ks, crc, hch, hexec⟩ := exec_transform_completes false c hs hfit hks hw
  rw [State.completed_eq hbcnt] at hexec
  exact ⟨m, ks, crc, hch, hexec, hch.ks_length hks, hch.crc_of_uncoupled, fun a ha => hch.mem_outside_windows le_rfl ha⟩

/-- Settles O42: the recurrence's closed form. -/
theorem encChainsCiphertext : Obligations.EncChainsCiphertext := by
  intro s c hs hbcnt hd hks hw
  obtain ⟨m, ks, crc, hch, hexec, -, -, -, hout⟩ := encCompletes s c hs hbcnt hd.fits hks hw
  exact ⟨m, ks, crc, hexec, hch.encoded hd le_rfl, hout⟩

/-- Settles O43: the recurrence's closed form. -/
theorem decUnchainsCiphertext : Obligations.DecUnchainsCiphertext := by
  intro s c hs hbcnt hd hks hw
  obtain ⟨m, ks, crc, hch, hexec, -, -, hout⟩ := decCompletes s c hs hbcnt hd.fits hks hw
  exact ⟨m, ks, crc, hexec, hch.decoded hd le_rfl, hout⟩

/-! `DEC` of what `ENC` wrote. `t` is the block after `ENC`, with the first keystream loaded again. -/

section RoundTrip
variable {s t : State} {c d : Bool} {n : Nat} {m' : Mem} {ks ks' : List Byte} {crc crc' : Word}
  (hoff : t.blockOffset = s.blockOffset) (hbs : t.bs = s.bs) (hks : t.ks = s.ks)
  (henc : s.Encoded c n t.mem ks crc) (hdec : t.Decoded d n m' ks' crc')
include hoff hbs hks henc hdec

/-- Each block is decoded with the keystream it was encoded with, so `(p ^^^ k) ^^^ k = p` (41_blockchain.md R143). -/
theorem State.Encoded.decoded_byteAt {j i : Nat} (hj : j < n) (hi : i < s.bs) :
    m'.byteAt (s.blockOffset j + i) = s.mem.byteAt (s.blockOffset j + i) := by
  obtain ⟨p, k, hp, hk, hm⟩ := henc.byte j hj i hi
  obtain ⟨x, k', hx, hk', hm'⟩ := hdec.byte j hj i (hi.trans_eq hbs.symm)
  rw [hoff] at hx hk' hm'
  rw [hks] at hk'
  obtain rfl : p ^^^ k = x := Option.some.inj (hm.symm.trans hx)
  obtain rfl : k = k' := Option.some.inj (hk.symm.trans hk')
  rw [hm', hp, BitVec.xor_assoc, BitVec.xor_self, BitVec.xor_zero]

/-- Both end with the last block's ciphertext, which stands in memory between them. -/
theorem State.Encoded.decoded_ks : ks' = ks := by
  rw [hdec.ks, henc.ks, hoff, hbs, hks]

end RoundTrip

/-- A completed transform leaves the windows writable. -/
theorem State.Chained.completed_windowsWritable {s : State} {enc c : Bool} {n : Nat} {m : Mem} {ks : List Byte} {crc : Word}
    (h : s.Chained enc c n m ks crc) (hw : s.WindowsWritable) (ks' : List Byte) (crc' : Word) :
    (s.completed m ks' crc').WindowsWritable :=
  fun a ha => (h.writable (u := s.completed m ks' crc') rfl a).trans (hw a ha)

/-- Settles O44: inside the windows each block decodes to what it was, outside them neither command writes. -/
theorem decUndoesEnc : Obligations.DecUndoesEnc := by
  intro s c d hs hd hks hw
  obtain ⟨m, ks, crc, hch, hexec⟩ := exec_transform_completes true c hs hd.fits hks hw
  obtain ⟨m', ks', crc', hch', hexec'⟩ := exec_transform_completes (s := s.completed m s.ks crc) false d hs hd.fits hks
    (hch.completed_windowsWritable hw s.ks crc)
  have henc := hch.encoded hd le_rfl
  have hdec := hch'.decoded (s := s.completed m s.ks crc) hd le_rfl
  have hoff : (s.completed m s.ks crc).blockOffset = s.blockOffset := rfl
  refine ⟨_, _, hexec, hexec', fun a => ?_, henc.decoded_ks hoff rfl rfl hdec, hs⟩
  by_cases ha : s.InWindows a
  · obtain ⟨j, hj, i, hi, rfl⟩ := ha.exists_block
    exact henc.decoded_byteAt hoff rfl rfl hdec hj hi
  · exact (hch'.mem_outside_windows le_rfl ha).trans (hch.mem_outside_windows le_rfl ha)

/-- Settles O45: all three fold the ciphertext that `ENC.C` leaves in memory. -/
theorem coupledAndScannedChecksumsAgree : Obligations.CoupledAndScannedChecksumsAgree := by
  intro s x hs hd hks hw
  obtain ⟨m, ks, crc, hch, hexec⟩ := exec_transform_completes (s := s.setCrc x) true true hs hd.fits hks hw
  have hw' := hch.completed_windowsWritable (s := s.setCrc x) hw
  have hscan := exec_crcscan_completes (s := (s.setCrc x).completed m ks x) hs hd.fits
    fun a ha => State.readable_of_writable (hw' ks x a ha)
  obtain ⟨m', ks', crc', hch', hexec'⟩ := exec_transform_completes (s := (s.setCrc x).completed m s.ks x) false true hs
    hd.fits hks (hw' s.ks x)
  have hcrc : crc = crcFoldBytes x (s.blockBytes m s.blocks) := (hch.encoded (s := s.setCrc x) hd le_rfl).crc
  have hcrc' : crc' = crcFoldBytes x (s.blockBytes m s.blocks) :=
    (hch'.decoded (s := (s.setCrc x).completed m s.ks x) hd le_rfl).crc
  exact ⟨_, _, _, hexec, hscan, hexec', hcrc.symm, hcrc'.trans hcrc.symm⟩

end Sys2Proof.Machine
end

section
/-! Two corner cases (41_blockchain.md R140, R141): `DEC` with another keystream, and `ENC` of one block twice. -/

namespace Sys2Proof.Machine

theorem State.blockOffset_zero {s : State} (h : s.bcnt ≠ 0) : s.blockOffset 0 = 0 := by
  rw [State.blockOffset_top (State.bcnt_pos h), topOffset, Nat.mul_zero]

/-! `t` is the block `s` with another keystream. -/

section OtherKeystream
variable {s t : State} {c : Bool} {n : Nat} {m m' : Mem} {ks ks' : List Byte} {crc crc' : Word}
  (hoff : t.blockOffset = s.blockOffset) (hbs : t.bs = s.bs) (hmem : t.mem = s.mem)
  (h : s.Decoded c n m ks crc) (h' : t.Decoded c n m' ks' crc')
include hoff hbs hmem h h'

/-- From the second block on the keystream is ciphertext read from memory. -/
theorem State.Decoded.byteAt_eq_of_pos {j i : Nat} (hpos : 0 < j) (hj : j < n) (hi : i < s.bs) :
    m.byteAt (s.blockOffset j + i) = m'.byteAt (s.blockOffset j + i) := by
  obtain ⟨x, k, hx, hk, hm⟩ := h.byte j hj i hi
  obtain ⟨x', k', hx', hk', hm'⟩ := h'.byte j hj i (hi.trans_eq hbs.symm)
  rw [if_neg hpos.ne'] at hk hk'
  rw [hoff, hmem] at hx' hk'
  rw [hoff] at hm'
  obtain rfl : x = x' := Option.some.inj (hx.symm.trans hx')
  obtain rfl : k = k' := Option.some.inj (hk.symm.trans hk')
  exact hm.trans hm'.symm

/-- The first block is the bytes read xor the first keystream. -/
theorem State.Decoded.byteAt_first_eq_iff {i : Nat} (hn : 0 < n) (hi : i < s.bs) :
    m.byteAt (s.blockOffset 0 + i) = m'.byteAt (s.blockOffset 0 + i) ↔ s.ks[i]? = t.ks[i]? := by
  obtain ⟨x, k, hx, hk, hm⟩ := h.byte 0 hn i hi
  obtain ⟨x', k', hx', hk', hm'⟩ := h'.byte 0 hn i (hi.trans_eq hbs.symm)
  rw [if_pos rfl] at hk hk'
  rw [hoff, hmem] at hx'
  rw [hoff] at hm'
  obtain rfl : x = x' := Option.some.inj (hx.symm.trans hx')
  rw [hm, hm', hk, hk', Option.some.injEq, Option.some.injEq, BitVec.xor_right_inj]

/-- The final keystream is the last block as it was read. -/
theorem State.Decoded.ks_eq (hn : 0 < n) : ks = ks' := by
  rw [h.ks, h'.ks, if_neg hn.ne', if_neg hn.ne', hmem, hoff, hbs]

/-- The bytes folded are those read. -/
theorem State.Decoded.crc_eq (hcrc : t.crc = s.crc) : crc = crc' := by
  rw [h.crc, h'.crc, hcrc, hmem, State.blockBytes, State.blockBytes, hoff, hbs]

end OtherKeystream

/-- Settles O46: of the windows only block 0 is decoded with the keystream `DEC` started from. -/
theorem wrongKeystreamSpoilsFirstBlockOnly : Obligations.WrongKeystreamSpoilsFirstBlockOnly := by
  intro s k c hs hbcnt hd hks hk hw
  obtain ⟨m, ks, crc, hexec, hdec, hout⟩ := decUnchainsCiphertext s c hs hbcnt hd hks hw
  obtain ⟨m', ks', crc', hexec', hdec', hout'⟩ := decUnchainsCiphertext (s.setKs k) c hs hbcnt hd hk hw
  have hoff : (s.setKs k).blockOffset = s.blockOffset := rfl
  have hpos : 0 < s.blocks := State.blocks_pos hbcnt
  refine ⟨_, _, hexec, hexec', hs, hs, hdec.ks_eq hoff rfl rfl hdec' hpos, hdec.crc_eq hoff rfl rfl hdec' rfl,
    fun a ha => ?_, fun i hi => ?_⟩
  · by_cases hwin : s.InWindows a
    · obtain ⟨j, hj, i, hi, rfl⟩ := hwin.exists_block
      have hj0 : j ≠ 0 := by
        rintro rfl
        rw [State.blockOffset_zero hbcnt] at ha
        omega
      exact hdec.byteAt_eq_of_pos hoff rfl rfl hdec' (Nat.pos_of_ne_zero hj0) hj hi
    · exact (hout a hwin).trans (hout' a hwin).symm
  · have hfirst := hdec.byteAt_first_eq_iff hoff rfl rfl hdec' hpos hi
    rwa [State.blockOffset_zero hbcnt, Nat.zero_add] at hfirst

/-- A block that `ENC` meets twice in a row is xored with itself the second time, since its ciphertext is the keystream by then. -/
theorem State.Chained.enc_twice {s : State} {c : Bool} {n : Nat} {m : Mem} {ks : List Byte} {crc : Word}
    (h : s.Chained true c (n + 2) m ks crc) (hoff : s.blockOffset (n + 1) = s.blockOffset n) {i : Nat} (hi : i < s.bs) :
    m.byteAt (s.blockOffset n + i) = some 0 ∧ ks[i]? = some 0 := by
  cases h with
  | succ before _ hbyte _ =>
    obtain ⟨p, k, hp, hk, hm, hks⟩ := hbyte i hi
    have hpk : some k = some p := by rw [← hk, ← hp, before.enc_ks n.succ_pos hi, hoff, Nat.add_sub_cancel]
    obtain rfl : k = p := Option.some.inj hpk
    rw [hoff, BitVec.xor_self] at hm
    rw [if_pos rfl, BitVec.xor_self] at hks
    exact ⟨hm, hks⟩

/-- When the region is one block, every block of the traversal is the region (41_blockchain.md R140). -/
theorem State.blockOffset_of_wholeRegion {s : State} (hbcnt : s.bcnt = 1) (hplen : s.plen.toNat = s.bs) {j : Nat}
    (hj : j < s.blocks) : s.blockOffset j = 0 := by
  have hone : s.bcnt.toNat = 1 := by rw [hbcnt]; rfl
  unfold State.blocks at hj
  obtain rfl | rfl : j = 0 ∨ j = 1 := by omega
  · simp [State.blockOffset, topOffset, hone]
  · simp [State.blockOffset, bottomOffset, hone, hplen]

/-- Settles O47: the bottom block is the top block again. -/
theorem encOfWholeRegionLeavesZeros : Obligations.EncOfWholeRegionLeavesZeros := by
  intro s c hs hbcnt hplen hks hw
  have hone : s.bcnt.toNat = 1 := by rw [hbcnt]; rfl
  have hblocks : s.blocks = 0 + 2 := by rw [State.blocks, hone]
  have hfit : s.Fits := by rw [State.Fits, hone, hplen, Nat.mul_one]
  have hwin : s.WindowsWritable := by
    rintro a ⟨j, hj, -, hlt⟩
    rw [State.blockOffset_of_wholeRegion hbcnt hplen hj, Nat.zero_add] at hlt
    exact hw a hlt
  have hzero : s.blockOffset 0 = 0 := State.blockOffset_of_wholeRegion hbcnt hplen (by omega)
  have hnext : s.blockOffset (0 + 1) = s.blockOffset 0 :=
    (State.blockOffset_of_wholeRegion hbcnt hplen (by omega)).trans hzero.symm
  obtain ⟨m, ks, crc, hch, hexec⟩ := exec_transform_completes true c hs hfit hks hwin
  refine ⟨_, hexec, hs, rfl, fun i hi => ?_, fun a ha => ?_⟩
  · have htwice := (hblocks ▸ hch).enc_twice hnext hi
    rwa [hzero, Nat.zero_add] at htwice
  · refine hch.mem_outside fun j hj hin => ?_
    obtain ⟨-, hlt⟩ := hin
    rw [State.blockOffset_of_wholeRegion hbcnt hplen hj] at hlt
    omega

end Sys2Proof.Machine
end

section
/-! `ENC` and `DEC` that stop inside a block (41_blockchain.md R139; 60_exceptions.md R204, R205). -/

namespace Sys2Proof.Machine

section Chained
variable {s : State} {enc c : Bool} {n : Nat} {m : Mem} {ks : List Byte} {crc : Word} (h : s.Chained enc c n m ks crc)
include h

/-- Before the first block nothing has changed. -/
theorem State.Chained.eq_start (hn : n = 0) : m = s.mem ∧ ks = s.ks ∧ crc = s.crc := by
  subst hn
  cases h
  exact ⟨rfl, rfl, rfl⟩

/-- The chain of `ENC` as it stands in memory. -/
theorem State.Chained.ks_of_enc (henc : enc = true) (hn : 0 < n) {l : Nat} (hl : l < s.bs) :
    ks[l]? = m.byteAt (s.blockOffset (n - 1) + l) := by
  subst henc
  exact h.enc_ks hn hl

/-- The closed form of either direction, of any memory that agrees on the blocks done so far. -/
theorem State.Chained.closedForm (hn : n ≤ s.blocks) (hd : s.Disjoint) {m' : Mem}
    (hm : ∀ j < n, ∀ i < s.bs, m'.byteAt (s.blockOffset j + i) = m.byteAt (s.blockOffset j + i)) :
    if enc then s.Encoded c n m' ks crc else s.Decoded c n m' ks crc := by
  cases enc
  · exact (h.decoded hd hn).congr hm
  · exact (h.encoded hd hn).congr hm

end Chained

/-- Settles O48: the blocks before block `j` complete and block `j` raises before it writes. -/
theorem transformReadFault : Obligations.TransformReadFault := by
  intro s enc c j k hs hfit hks hj hk hw hr hu
  obtain ⟨t, hexec, m, ks, crc, hch, rfl⟩ := exec_transform_fault enc c hs hfit hks hj hw
    (Q := fun t => ∃ m ks crc, s.Chained enc c j m ks crc ∧
      t = s.stoppedIn j m ks crc .invalidStreamRead (BitVec.ofNat 32 (s.blockOffset j + k)))
    fun u hch hat => by
      have hblock := State.Chained.readFault (u := u.setBlkidx (BitVec.ofNat 8 (s.blockIndex j))) hch hat.bs_eq hk hr hu
      exact ⟨_, hblock, u.mem, u.ks, u.crc, hch, hat.raise_payloadFault hs rfl u.mem _⟩
  exact ⟨m, ks, crc, hch, hexec, hch.ks_length hks, hch.eq_start, hch.crc_of_uncoupled,
    fun henc hpos l hl => hch.ks_of_enc henc hpos hl, fun hd => hch.closedForm hj.le hd fun _ _ _ _ => rfl,
    fun a ha => hch.mem_outside ha⟩

/-- Settles O49: the blocks before block `j` complete, and block `j` raises after the bytes before the faulting offset are written. -/
theorem transformWriteFault : Obligations.TransformWriteFault := by
  intro s enc c j k hs hfit hks hj hk hw hr hwk hu
  obtain ⟨t, hexec, m₀, m, ks, crc, hch, rfl, hbytes, hrest⟩ := exec_transform_fault enc c hs hfit hks hj hw
    (Q := fun t => ∃ m₀ m ks crc, s.Chained enc c j m₀ ks crc ∧
      t = s.stoppedIn j m ks crc .invalidStreamWrite (BitVec.ofNat 32 (s.blockOffset j + k)) ∧
      (∀ l < k, ∃ p q, m₀.byteAt (s.blockOffset j + l) = some p ∧ ks[l]? = some q ∧
        m.byteAt (s.blockOffset j + l) = some (p ^^^ q)) ∧
      ∀ a, a < s.blockOffset j ∨ s.blockOffset j + k ≤ a → m.byteAt a = m₀.byteAt a)
    fun u hch hat => by
      obtain ⟨m, hblock, hbytes, hrest⟩ := State.Chained.writeFault
        (u := u.setBlkidx (BitVec.ofNat 8 (s.blockIndex j))) hch hks hat.bs_eq hat.readOnly_eq hk hr hwk hu
      exact ⟨_, hblock, u.mem, m, u.ks, u.crc, hch, hat.raise_payloadFault hs rfl m _, hbytes, hrest⟩
  have hrest : ∀ a, ¬(s.blockOffset j ≤ a ∧ a < s.blockOffset j + k) → m.byteAt a = m₀.byteAt a :=
    fun a ha => hrest a (by omega)
  have hearlier (hd : s.Disjoint) : ∀ j' < j, ∀ l < s.bs,
      m.byteAt (s.blockOffset j' + l) = m₀.byteAt (s.blockOffset j' + l) := fun j' hj' l hl => by
    have hout : ¬s.InBlock j (s.blockOffset j' + l) := State.not_inBlock hd hj (hj'.trans hj) hj'.ne' hl
    exact hrest _ fun ⟨hle, hlt⟩ => hout ⟨hle, by omega⟩
  exact ⟨m₀, m, ks, crc, hch, hexec, hbytes, hrest, hch.ks_length hks, fun h0 => (hch.eq_start h0).2,
    hch.crc_of_uncoupled, fun henc hpos l hl => hch.ks_of_enc henc hpos hl,
    fun hd => hch.closedForm hj.le hd (hearlier hd),
    fun hnew l hl => hch.mem_outside fun j' hj' => hnew j' hj' l hl,
    fun a ha hak => (hrest a hak).trans (hch.mem_outside ha)⟩

end Sys2Proof.Machine
end

section
/-! The checksum fold and the commands `CRCINIT` and `CRCB` (42_checksum.md R150 to R152, R154). The fold is linear over xor, and the bits that its
eight turns do not reach are only shifted. -/

namespace Sys2Proof.Machine

theorem crcShift_eq_xor (c : Word) : crcShift c = (c >>> 1) ^^^ (if c.getLsbD 0 then crcPoly else 0) := by
  unfold crcShift
  split
  · rfl
  · exact BitVec.xor_zero.symm

/-- One turn is linear: the polynomial goes in once for each operand whose low bit is set, and twice is not at all. -/
theorem crcShift_xor (x y : Word) : crcShift (x ^^^ y) = crcShift x ^^^ crcShift y := by
  have hpoly : (if (x ^^^ y).getLsbD 0 then crcPoly else 0) =
      (if x.getLsbD 0 then crcPoly else 0) ^^^ (if y.getLsbD 0 then crcPoly else 0) := by
    rw [BitVec.getLsbD_xor]
    cases x.getLsbD 0 <;> cases y.getLsbD 0 <;> simp
  rw [crcShift_eq_xor, crcShift_eq_xor x, crcShift_eq_xor y, hpoly, BitVec.ushiftRight_xor_distrib]
  ac_rfl

theorem repeat_crcShift_xor (n : Nat) (x y : Word) :
    Nat.repeat crcShift n (x ^^^ y) = Nat.repeat crcShift n x ^^^ Nat.repeat crcShift n y := by
  induction n with
  | zero => rfl
  | succ n ih => rw [Nat.repeat, ih, crcShift_xor, Nat.repeat, Nat.repeat]

/-- While the low bit is clear a turn only shifts. -/
theorem repeat_crcShift_of_low_zero {n : Nat} {y : Word} (h : ∀ i < n, y.getLsbD i = false) :
    Nat.repeat crcShift n y = y >>> n := by
  induction n with
  | zero => rw [Nat.repeat, BitVec.ushiftRight_zero]
  | succ n ih =>
    have hlow : (y >>> n).getLsbD 0 = false := by
      rw [BitVec.getLsbD_ushiftRight]
      exact h n n.lt_succ_self
    rw [Nat.repeat, ih fun i hi => h i (hi.trans n.lt_succ_self), crcShift, hlow, BitVec.shiftRight_add]
    rfl

/-- Folding the byte 0 runs the eight turns alone. -/
theorem crcFold_zero (c : Word) : crcFold c 0 = Nat.repeat crcShift 8 c :=
  congrArg (Nat.repeat crcShift 8) BitVec.xor_zero

/-- Bit `i` of the mask of the low byte. -/
theorem getLsbD_lowByteMask {i : Nat} (hi : i < 32) : (0xFF : Word).getLsbD i = decide (i < 8) := by
  revert i
  decide

/-- The eight turns of any word: a fold of its low byte, with the three other bytes shifted down untouched. -/
theorem repeat_crcShift_eight (x : Word) : Nat.repeat crcShift 8 x = crcFold (x &&& 0xFF) 0 ^^^ (x >>> 8) := by
  have hsplit : x = (x &&& 0xFF) ^^^ (x &&& ~~~0xFF) := by
    apply BitVec.eq_of_getLsbD_eq
    intro i hi
    simp only [BitVec.getLsbD_xor, BitVec.getLsbD_and, BitVec.getLsbD_not, getLsbD_lowByteMask hi, hi]
    cases x.getLsbD i <;> simp
  have hlow : ∀ i < 8, (x &&& ~~~0xFF).getLsbD i = false := by
    intro i hi
    have hi' : i < 32 := by omega
    simp only [BitVec.getLsbD_and, BitVec.getLsbD_not, getLsbD_lowByteMask hi']
    simp [hi]
  have hhigh : (x &&& ~~~0xFF) >>> 8 = x >>> 8 := by
    apply BitVec.eq_of_getLsbD_eq
    intro i _
    rw [BitVec.getLsbD_ushiftRight, BitVec.getLsbD_ushiftRight, BitVec.getLsbD_and, BitVec.getLsbD_not]
    by_cases hi : 8 + i < 32
    · rw [getLsbD_lowByteMask hi, decide_eq_true hi, decide_eq_false (by omega), Bool.not_false, Bool.and_true, Bool.and_true]
    · rw [BitVec.getLsbD_of_ge x _ (Nat.le_of_not_lt hi), Bool.false_and]
  calc Nat.repeat crcShift 8 x
      = Nat.repeat crcShift 8 (x &&& 0xFF) ^^^ Nat.repeat crcShift 8 (x &&& ~~~0xFF) := by
        rw [← repeat_crcShift_xor, ← hsplit]
    _ = crcFold (x &&& 0xFF) 0 ^^^ (x >>> 8) := by
        rw [crcFold_zero, repeat_crcShift_of_low_zero hlow, hhigh]

/-- Settles O34: the eight turns by the low byte and the rest; the byte folded is shifted out of the rest. -/
theorem crcTableForm : Obligations.CrcTableForm := by
  refine ⟨fun c b => ?_, by decide, by decide, by decide, by decide, by decide, by decide⟩
  have hbyte : b.setWidth 32 >>> 8 = 0#32 := by
    apply BitVec.eq_of_toNat_eq
    rw [BitVec.toNat_ushiftRight, BitVec.toNat_setWidth_of_le (by decide), Nat.shiftRight_eq_zero _ _ b.isLt]
    rfl
  have hshift : (c ^^^ b.setWidth 32) >>> 8 = c >>> 8 := by
    rw [BitVec.ushiftRight_xor_distrib, hbyte, BitVec.xor_zero]
  rw [crcFold, repeat_crcShift_eight, hshift]

/-- Settles O33: the fold's turns are the loop of R150. -/
theorem crcbFoldsOneByte : Obligations.CrcbFoldsOneByte := by
  intro s b hs
  rw [exec, execCrcb, command_of_running hs]
  rfl

/-- Every character of the digest 0 is the digit 0, in either case of the hex digits (42_checksum.md R156). -/
theorem State.hexChar_of_digest_zero {s : State} (h : s.digest = 0) (k : Nat) : s.hexChar k = 0x30 := by
  rw [State.hexChar, h, BitVec.ofNat_eq_ofNat, BitVec.extractLsb'_zero]
  rfl

/-- Settles O32: the complement of the seed is 0. -/
theorem crcinitSeeds : Obligations.CrcinitSeeds := by
  refine ⟨by decide, fun s hs => ⟨s.setCrc crcSeed, ?_, rfl, ?_⟩⟩
  · rw [exec, execCrcinit, command_of_running hs]
  · have hdigest : (s.setCrc crcSeed).digest = 0 := by rw [State.digest, State.setCrc_crc]; rfl
    have hchar := State.hexChar_of_digest_zero hdigest
    refine ⟨congrArg some hdigest, ?_, ?_⟩
    · show some (s.setCrc crcSeed).dighex0 = _
      rw [State.dighex0, hchar, hchar, hchar, hchar]
      rfl
    · show some (s.setCrc crcSeed).dighex1 = _
      rw [State.dighex1, hchar, hchar, hchar, hchar]
      rfl

end Sys2Proof.Machine
end

section
/-! `CRCSCAN` (42_checksum.md R153, R159 (e)): one block by the bytes it reads, the scan that completes, the scan that stops, and that neither looks at
the keystream or the password. -/

namespace Sys2Proof.Machine

/-- A readable block folds the bytes that memory holds there. -/
theorem scanBlock_of_readable {s : State} {off : Nat} (hr : ∀ i < s.bs, s.readable (off + i) = true) :
    scanBlock off s = .ok (s.setCrc (crcFoldBytes s.crc (s.mem.bytesAt off s.bs))) := by
  obtain ⟨bytes, hscan, hl, hbytes⟩ := scanBlock_ok hr
  rw [hscan, Mem.bytesAt_eq hl hbytes]

/-- Once the size check passed a scan is its traversal. -/
theorem exec_crcscan_of_fits {s : State} (hs : s.failed = false) (hfit : s.Fits) :
    exec .crcscan s = .next (traverseWindows scanBlock s) := by
  rw [exec, execCrcscan, command_of_running hs, State.windowTooLarge_eq_false.2 hfit]
  rfl

/-- When the size check fails it is refused. -/
theorem exec_crcscan_of_not_fits {s : State} (hs : s.failed = false) (hfit : ¬s.Fits) :
    exec .crcscan s = .next (s.raise .sizeUnderflow 0) := by
  rw [exec, execCrcscan, command_of_running hs, State.windowTooLarge_eq_true.2 (Nat.lt_of_not_le hfit)]
  rfl

/-- Settles O35: the completed scan, with `BLKIDX` of a traversal of at least one block. -/
theorem crcscanFoldsBothWindows : Obligations.CrcscanFoldsBothWindows := by
  intro s hs hbcnt hfit hr
  rw [exec_crcscan_completes hs hfit hr, State.completed_eq hbcnt]

/-! A scan that stops. -/

/-- `s` after `n` blocks of a scan, in pass `p`. -/
def State.scanned (s : State) (p : Pass) (n : Nat) : State :=
  { s with crc := crcFoldBytes s.crc (s.blockBytes s.mem n), pass := p, blkidx := s.blkidxAfter n }

theorem State.scanned_zero (s : State) (p : Pass) : s.scanned p 0 = s.setPass p := rfl

/-- One more readable block. -/
theorem State.scanned_succ {s : State} {p : Pass} {n : Nat} (hr : ∀ i < s.bs, s.readable (s.blockOffset n + i) = true) :
    scanBlock (s.blockOffset n) ((s.scanned p n).setBlkidx (BitVec.ofNat 8 (s.blockIndex n))) =
      .ok (s.scanned p (n + 1)) := by
  rw [scanBlock_of_readable (s := (s.scanned p n).setBlkidx _) hr, State.scanned, State.scanned, State.blockBytes_succ,
    crcFoldBytes_append]
  rfl

/-- Settles O37: the blocks before block `j` are folded, and block `j` raises before its fold. -/
theorem crcscanReadFault : Obligations.CrcscanReadFault := by
  intro s j k hs hfit hj hk hbefore hr hu
  rw [exec_crcscan_of_fits hs hfit]
  refine congrArg _ (traverseWindows_fault (P := fun p n u => u = s.scanned p n) (Q := fun t => t = _) hj
    (s.scanned_zero .top).symm ?_ ?_ ?_)
  · rintro _ rfl
    rfl
  · rintro i _ hi rfl
    exact ⟨_, State.scanned_succ (hbefore i hi), rfl⟩
  · rintro _ rfl
    refine ⟨_, scanBlock_readFault (s := (s.scanned _ j).setBlkidx _) hk hr hu, ?_⟩
    exact State.raise_eq_faulted (s := (s.scanned _ j).setBlkidx _) hs rfl _

/-! The keystream and the password play no part (42_checksum.md R159 (e)). -/

/-- `s` with another keystream and password. -/
def State.withKeys (s : State) (ks pw : List Byte) : State := (s.setKs ks).setPw pw

@[simp] theorem State.withKeys_bs (s : State) (ks pw : List Byte) : (s.withKeys ks pw).bs = s.bs := rfl
@[simp] theorem State.withKeys_plen (s : State) (ks pw : List Byte) : (s.withKeys ks pw).plen = s.plen := rfl
@[simp] theorem State.withKeys_bcnt (s : State) (ks pw : List Byte) : (s.withKeys ks pw).bcnt = s.bcnt := rfl
@[simp] theorem State.withKeys_setPass (s : State) (ks pw : List Byte) (p : Pass) :
    (s.withKeys ks pw).setPass p = (s.setPass p).withKeys ks pw := rfl

theorem State.raise_withKeys (s : State) (ks pw : List Byte) (cause : Cause) (info : Word) :
    (s.withKeys ks pw).raise cause info = (s.raise cause info).withKeys ks pw := by
  cases hf : s.failed
  · rw [State.raise_of_running hf, State.raise_of_running (s := s.withKeys ks pw) hf]
    rfl
  · rw [State.raise_of_failed hf, State.raise_of_failed (s := s.withKeys ks pw) hf]

/-- A block completes or stops alike: it reads memory and `CRC`. -/
theorem scanBlock_withKeys (s : State) (ks pw : List Byte) (off : Nat) :
    (∃ v, scanBlock off s = .ok v ∧ scanBlock off (s.withKeys ks pw) = .ok (v.withKeys ks pw)) ∨
    (∃ v, scanBlock off s = .error v ∧ scanBlock off (s.withKeys ks pw) = .error (v.withKeys ks pw)) := by
  cases hread : s.readBytes off s.bs with
  | ok bytes =>
    have hr : ∀ i < s.bs, s.readable (off + i) = true := fun i hi => ((State.readBytes_eq_ok hread).2 i hi).2
    exact .inl ⟨_, scanBlock_of_readable hr, scanBlock_of_readable (s := s.withKeys ks pw) hr⟩
  | error stopped =>
    obtain ⟨k, hk, hu, hr, -⟩ := State.readBytes_eq_error hread
    refine .inr ⟨_, scanBlock_readFault hk hr hu, ?_⟩
    rw [← State.raise_withKeys]
    exact scanBlock_readFault (s := s.withKeys ks pw) hk hr hu

/-- A pass of the scan, likewise. -/
theorem runPass_scanBlock_withKeys (s : State) (ks pw : List Byte) (offset : Nat → Nat) (index n : Nat) :
    (∃ t, runPass scanBlock offset index n s = .ok t ∧
      runPass scanBlock offset index n (s.withKeys ks pw) = .ok (t.withKeys ks pw)) ∨
    (∃ t, runPass scanBlock offset index n s = .error t ∧
      runPass scanBlock offset index n (s.withKeys ks pw) = .error (t.withKeys ks pw)) := by
  have hrun := runPass_related (block := scanBlock) (block' := scanBlock) (offset := offset) (index := index) (n := n)
    (R := fun u u' => u' = u.withKeys ks pw) (s := s) rfl ?_
  · rcases hrun with ⟨t, _, ht, ht', rfl⟩ | ⟨t, _, ht, ht', rfl⟩
    · exact .inl ⟨t, ht, ht'⟩
    · exact .inr ⟨t, ht, ht'⟩
  · rintro j u _ - - rfl
    rcases scanBlock_withKeys (u.setBlkidx (BitVec.ofNat 8 j)) ks pw (offset j) with ⟨v, hv, hv'⟩ | ⟨v, hv, hv'⟩
    · exact .inl ⟨v, _, hv, hv', rfl⟩
    · exact .inr ⟨v, _, hv, hv', rfl⟩

/-- Both passes. -/
theorem traverseWindows_scanBlock_withKeys (s : State) (ks pw : List Byte) :
    traverseWindows scanBlock (s.withKeys ks pw) = (traverseWindows scanBlock s).withKeys ks pw := by
  rcases runPass_scanBlock_withKeys (s.setPass .top) ks pw (topOffset s.bs) 0 s.bcnt.toNat with
    ⟨t, ht, ht'⟩ | ⟨t, ht, ht'⟩
  · rcases runPass_scanBlock_withKeys (t.setPass .bottom) ks pw (bottomOffset s.bs s.plen.toNat) 0 s.bcnt.toNat with
      ⟨w, hw, hw'⟩ | ⟨w, hw, hw'⟩ <;> simp [traverseWindows, ht, ht', hw, hw']
  · simp [traverseWindows, ht, ht']

/-- Settles O36: ignored in the Failed state, run, or refused by the size check, a scan commutes with the change of keystream and password. -/
theorem crcscanIgnoresKeystreamAndPassword : Obligations.CrcscanIgnoresKeystreamAndPassword := by
  intro s ks pw
  suffices h : ∃ t, exec .crcscan s = .next t ∧ exec .crcscan (s.withKeys ks pw) = .next (t.withKeys ks pw) by
    obtain ⟨t, ht, hu⟩ := h
    exact ⟨t, _, ht, hu, rfl⟩
  cases hf : s.failed with
  | true => exact ⟨s, exec_of_failed hf (by decide), exec_of_failed (s := s.withKeys ks pw) hf (by decide)⟩
  | false =>
    by_cases hfit : s.Fits
    · refine ⟨_, exec_crcscan_of_fits hf hfit, ?_⟩
      rw [exec_crcscan_of_fits (s := s.withKeys ks pw) hf hfit, traverseWindows_scanBlock_withKeys]
    · refine ⟨_, exec_crcscan_of_not_fits hf hfit, ?_⟩
      rw [exec_crcscan_of_not_fits (s := s.withKeys ks pw) hf hfit, State.raise_withKeys]

end Sys2Proof.Machine
end

section
/-! `CLEAR` (43_control.md R170): the state it leaves reads `STATUS` 0. -/

namespace Sys2Proof.Machine

/-- An empty keystream is never ready: a block has at least one byte (00_scope.md R7). -/
theorem State.ksrdy_eq_false_of_ks_nil {s : State} (hks : s.ks = []) (hbs : 1 ≤ s.bs) : s.ksrdy = false := by
  rw [State.ksrdy, hks]
  exact decide_eq_false (Nat.ne_of_lt hbs)

/-- `STATUS` reads 0 when no fault is recorded, no traversal has started and no keystream is ready (10_state.md R28). -/
theorem State.status_eq_zero {s : State} (hfailed : s.failed = false) (hcause : s.cause = .noFault) (hpass : s.pass = .idle)
    (hblkidx : s.blkidx = 0) (hksrdy : s.ksrdy = false) : s.status = 0 := by
  rw [State.status, hfailed, hcause, hpass, hblkidx, hksrdy]
  rfl

/-- Settles O22: `CLEAR` does not look at `FAILED`, and it leaves every field of `STATUS` 0. -/
theorem clearDiscardsTheRun : Obligations.ClearDiscardsTheRun := by
  refine ⟨by decide, fun s => ⟨_, rfl, fun hbs => ?_, rfl⟩⟩
  exact State.status_eq_zero rfl rfl rfl rfl (State.ksrdy_eq_false_of_ks_nil rfl hbs)

end Sys2Proof.Machine
end

section
/-! The Failed state (60_exceptions.md R201 to R203, R208, R210 to R213): what raises at the register port and before a traversal, what a fault record
outlasts, and what discards it. -/

namespace Sys2Proof.Machine

/-! The register port outside the register map (10_state.md R26, 60_exceptions.md R208). -/

/-- The host may read exactly registers 0 to 12 (10_state.md R26). -/
theorem State.register_isSome_iff (s : State) (n : BitVec 6) : (s.register n).isSome = true ↔ n.toNat < 13 := by
  unfold State.register
  split
  case h_14 =>
    simp only [imp_false] at *
    exact iff_of_false Bool.false_ne_true (by omega)
  all_goals exact iff_of_true rfl (by omega)

/-- Each of them has a value. -/
theorem State.exists_register_of_lt (s : State) {n : BitVec 6} (hn : n.toNat < 13) : ∃ v, s.register n = some v :=
  Option.isSome_iff_exists.mp ((s.register_isSome_iff n).mpr hn)

/-- A read of any other number is refused with 0 (R208). -/
theorem accessRead_of_undefined {n : BitVec 6} (hn : 13 ≤ n.toNat) (s : State) :
    accessRead n s = (s.raise .illegalAccess 0).answer 0 := by
  have hnone : s.register n = none := by
    rw [← Option.not_isSome_iff_eq_none, s.register_isSome_iff]
    exact Nat.not_lt.mpr hn
  rw [accessRead, hnone]

/-- A write of any number but `PLEN`, `BCNT` and `CMD` is refused (R208). -/
theorem accessWrite_of_unwritable {n : BitVec 6} (hplen : n ≠ 4) (hbcnt : n ≠ 5) (hcmd : n ≠ 13) (v : Word) (s : State) :
    accessWrite n v s = .next (s.raise .illegalAccess 0) := by
  unfold accessWrite
  split
  · rename_i hn; exact absurd (BitVec.eq_of_toNat_eq hn) hplen
  · rename_i hn; exact absurd (BitVec.eq_of_toNat_eq hn) hbcnt
  · rename_i hn; exact absurd (BitVec.eq_of_toNat_eq hn) hcmd
  · rfl

/-- A word that is no command raises `IllegalCommand`; a raise in the Failed state does nothing (R201, R211). -/
theorem execute_of_reject {w : Word} {e : DecodeReject} (hd : decode w = .error e) (s : State) :
    execute w s = .next (s.raise .illegalCommand 0) := by
  unfold execute
  split
  · rename_i hfailed; rw [State.raise_of_failed hfailed.1]
  · rw [hd]

/-! What leaves the Failed state and what does not. -/

/-- `CLEAR`'s word always runs `CLEAR` (30_encoding.md R91, 43_control.md R170). -/
theorem execute_clearWord (s : State) : execute clearWord s = execClear s := execute_of_decode (i := .clear) (by decide) s

/-- `t` is Failed with the fault record of `s`: the first fault is kept (60_exceptions.md R211). -/
def State.KeepsFault (s t : State) : Prop := t.failed = true ∧ t.cause = s.cause ∧ t.faddr = s.faddr

/-- `t` is what R213 leaves of a failed run: not Failed, and without keystream, password and CRC state. -/
def State.RunDiscarded (t : State) : Prop := t.failed = false ∧ t.ks = [] ∧ t.pw = [] ∧ t.crc = 0xFFFFFFFF

section Failed
variable {s t : State} (hs : s.failed = true)
include hs

/-- No register write but `CLEAR`'s touches the fault record (60_exceptions.md R212). -/
theorem accessWrite_keepsFault {n : BitVec 6} {v : Word} (hclear : ¬(n = 13 ∧ v = clearWord))
    (h : accessWrite n v s = .next t) : s.KeepsFault t := by
  by_cases hplen : n = 4
  · subst hplen; cases h; exact ⟨hs, rfl, rfl⟩
  by_cases hbcnt : n = 5
  · subst hbcnt; cases h; exact ⟨hs, rfl, rfl⟩
  by_cases hcmd : n = 13
  · subst hcmd
    have hignored : accessWrite 13 v s = .next s := execute_of_failed hs fun hv => hclear ⟨rfl, hv⟩
    rw [hignored] at h
    cases h; exact ⟨hs, rfl, rfl⟩
  · rw [accessWrite_of_unwritable hplen hbcnt hcmd, State.raise_of_failed hs] at h
    cases h; exact ⟨hs, rfl, rfl⟩

/-- No register read touches it. -/
theorem accessRead_keepsFault (n : BitVec 6) : s.KeepsFault (accessRead n s) := by
  by_cases hn : n.toNat < 13
  · obtain ⟨v, hv⟩ := State.exists_register_of_lt s hn
    rw [accessRead_of_register hv]; exact ⟨hs, rfl, rfl⟩
  · rw [accessRead_of_undefined (Nat.not_lt.mp hn), State.raise_of_failed hs]; exact ⟨hs, rfl, rfl⟩

/-- No event of the outside world but `CLEAR` and reset touches it (60_exceptions.md R213). -/
theorem hostEvent_keepsFault {e : HostEvent} (hclear : e ≠ .write 13 clearWord) (hreset : e ≠ .reset)
    (h : hostEvent e s = .next t) : s.KeepsFault t := by
  cases e with
  | read n => cases h; exact accessRead_keepsFault hs n
  | write n v =>
    refine accessWrite_keepsFault hs ?_ h
    rintro ⟨rfl, rfl⟩
    exact hclear rfl
  | payPut off v => cases h; exact ⟨hs, rfl, rfl⟩
  | payDrop off => cases h; exact ⟨hs, rfl, rfl⟩
  | reset => exact absurd rfl hreset

end Failed

/-- `CLEAR` and reset leave the Failed state and discard the run (60_exceptions.md R213). -/
theorem hostEvent_discards {e : HostEvent} {s t : State} (he : e = .write 13 clearWord ∨ e = .reset)
    (h : hostEvent e s = .next t) : t.RunDiscarded := by
  rcases he with rfl | rfl
  · rw [hostEvent_write_cmd, execute_clearWord] at h
    cases h; exact ⟨rfl, rfl, rfl, rfl⟩
  · cases h; exact ⟨rfl, rfl, rfl, rfl⟩

/-- Settles O10: ignored words do not reach the decoder, and a raise while Failed does nothing; the rest is the register port as ever. -/
theorem failedStateIgnoresAllButClear : Obligations.FailedStateIgnoresAllButClear := by
  intro s rest hs
  have hs' : (s.setHost rest).failed = true := hs
  refine ⟨fun w hhost hw => ?_, fun n hhost hn => ?_, fun n v hhost hplen hbcnt hcmd => ?_, fun n hhost hn => ?_,
    fun v => (writesOfPlenAndBcnt s rest v).1, fun v => (writesOfPlenAndBcnt s rest v).2⟩ <;>
    rw [step_of_host_cons hhost]
  · rw [hostEvent_write_cmd, execute_of_failed hs' hw, State.setHost]
  · rw [hostEvent, accessRead_of_undefined hn, State.raise_of_failed hs']
    rfl
  · rw [hostEvent, accessWrite_of_unwritable hplen hbcnt hcmd, State.raise_of_failed hs', State.setHost]
  · obtain ⟨v, hv⟩ := State.exists_register_of_lt (s.setHost rest) hn
    refine ⟨v, hv, ?_⟩
    rw [hostEvent, accessRead_of_register hv]
    rfl

/-- Settles O11, by whether the event of the step is `CLEAR` or reset; an idle step keeps the state. -/
theorem failedLeftOnlyByClearOrReset : Obligations.FailedLeftOnlyByClearOrReset := by
  intro s t hs h
  refine ⟨fun ⟨rest, hhost⟩ => ?_, fun hother => ?_⟩
  · rcases hhost with hhost | hhost <;> rw [step_of_host_cons hhost] at h
    · exact hostEvent_discards (.inl rfl) h
    · exact hostEvent_discards (.inr rfl) h
  · cases hhost : s.host with
    | nil =>
      rw [step_of_host_nil hhost] at h
      cases h; exact ⟨hs, rfl, rfl⟩
    | cons e rest =>
      rw [step_of_host_cons hhost] at h
      have hclear : e ≠ .write 13 clearWord := fun he => hother ⟨rest, .inl (he ▸ hhost)⟩
      have hreset : e ≠ .reset := fun he => hother ⟨rest, .inr (he ▸ hhost)⟩
      exact hostEvent_keepsFault (s := s.setHost rest) hs hclear hreset h

/-- Settles O9: the rejected word raises, outside the Failed state. -/
theorem illegalWordRaisesIllegalCommand : Obligations.IllegalWordRaisesIllegalCommand := by
  intro s rest w e hhost hs hd
  have hs' : (s.setHost rest).failed = false := hs
  rw [step_of_host_cons hhost, hostEvent_write_cmd, execute_of_reject hd, State.raise_zero_eq_faulted hs', State.setHost]

/-- Settles O13: the refused read and the refused write raise, outside the Failed state. -/
theorem illegalAccessesRaise : Obligations.IllegalAccessesRaise := by
  intro s rest n hs
  have hs' : (s.setHost rest).failed = false := hs
  refine ⟨fun hhost hn => ?_, fun v hhost hplen hbcnt hcmd => ?_⟩ <;> rw [step_of_host_cons hhost, hostEvent]
  · rw [accessRead_of_undefined hn, State.raise_zero_eq_faulted hs']
    rfl
  · rw [accessWrite_of_unwritable hplen hbcnt hcmd, State.raise_zero_eq_faulted hs', State.setHost]

/-! The checks before a traversal, in their order (41_blockchain.md R133 to R135). -/

/-- The size check comes first, whatever the keystream (60_exceptions.md R202). -/
theorem transform_of_not_fits (block : Nat → State → Except State State) {s : State} (hfit : ¬s.Fits) :
    transform block s = s.raise .sizeUnderflow 0 :=
  if_pos (State.windowTooLarge_eq_true.mpr (Nat.lt_of_not_le hfit))

/-- The keystream check comes second (60_exceptions.md R203). -/
theorem transform_of_keystream_ne (block : Nat → State → Except State State) {s : State} (hfit : s.Fits)
    (hks : s.ks.length ≠ s.bs) : transform block s = s.raise .keystreamLength 0 := by
  rw [transform, State.windowTooLarge_eq_false.mpr hfit, if_neg Bool.false_ne_true, if_pos hks]

/-- A transform that a check refuses, outside the Failed state, leaves the fault record and nothing else (60_exceptions.md R210). -/
theorem exec_transform_refused {s : State} {cause : Cause} (hs : s.failed = false)
    (hrefused : ∀ block, transform block s = s.raise cause 0) (c : Bool) :
    exec (.enc c) s = .next (s.faulted cause 0) ∧ exec (.dec c) s = .next (s.faulted cause 0) := by
  constructor
  · rw [exec, execEnc, command_of_running hs, hrefused, State.raise_zero_eq_faulted hs]
  · rw [exec, execDec, command_of_running hs, hrefused, State.raise_zero_eq_faulted hs]

/-- Settles O38: the three traversals start with the size check. -/
theorem sizeCheckFirst : Obligations.SizeCheckFirst := by
  intro s c hs hsize
  have hfit : ¬s.Fits := Nat.not_le_of_lt hsize
  obtain ⟨henc, hdec⟩ := exec_transform_refused hs (fun block => transform_of_not_fits block hfit) c
  refine ⟨henc, hdec, ?_⟩
  rw [exec_crcscan_of_not_fits hs hfit, State.raise_zero_eq_faulted hs]

/-- Settles O39: both transforms check the keystream after the size. -/
theorem keystreamCheckSecond : Obligations.KeystreamCheckSecond := by
  intro s c hs hfit hks
  exact exec_transform_refused hs (fun block => transform_of_keystream_ne block hfit hks) c

end Sys2Proof.Machine
end

section
/-! Reset (70_reset_and_hazards.md R230 to R232): what the registers read, what the reset input writes, and what the commands do next. -/

namespace Sys2Proof.Machine

/-- The digest 0 is rendered as eight digits 0, four in each register (10_state.md R36). -/
theorem State.dighex_of_digest_zero {s : State} (h : s.digest = 0) : s.dighex0 = 0x30303030 ∧ s.dighex1 = 0x30303030 := by
  simp only [State.dighex0, State.dighex1, State.hexChar_of_digest_zero h]
  decide

/-- The complement of the seed is 0 (42_checksum.md R155). -/
theorem State.reset_digest : State.reset.digest = 0 := by decide

/-- `STATUS` reads 0 at reset: a block has at least one byte, so the empty keystream is not ready (00_scope.md R7, 10_state.md R28). -/
theorem State.reset_status : State.reset.status = 0 :=
  State.status_eq_zero rfl rfl rfl rfl (State.ksrdy_eq_false_of_ks_nil rfl resetMeetsInvariant.bs_pos)

/-- No block fits into the empty payload region of reset: at least one byte in at least one block (41_blockchain.md R134). -/
theorem State.reset_size_underflow : State.reset.plen.toNat < State.reset.bs * State.reset.bcnt.toNat :=
  Nat.mul_pos resetMeetsInvariant.bs_pos (State.bcnt_pos resetMeetsInvariant.bcnt_ne_zero)

/-- Settles O17, register by register: `STATUS` and the digest views are computed from other fields, the rest are fields or their lengths. -/
theorem resetRegisterValues : Obligations.ResetRegisterValues := by
  obtain ⟨hdighex0, hdighex1⟩ := State.dighex_of_digest_zero State.reset_digest
  refine (Prod.forall (p := fun r => r ∈ _ → State.reset.register r.1 = some r.2)).mp ?_
  simp only [List.forall_mem_cons]
  exact ⟨rfl, rfl, congrArg some State.reset_status, rfl, rfl, rfl, rfl, rfl, rfl, congrArg some State.reset_digest,
    congrArg some hdighex0, congrArg some hdighex1, rfl, nofun⟩

/-- Settles O18: the reset input is the next event, and it writes every register and keeps the rest (`State.resetRegisters`). -/
theorem resetInputResetsRegisters : Obligations.ResetInputResetsRegisters := by
  intro s rest hhost
  rw [step_of_host_cons hhost]
  rfl

/-- Settles O19: each clause is the command's own law at reset, where the size check fails, both buffers are empty and `CRC` is the seed. -/
theorem outcomesFromReset : Obligations.OutcomesFromReset := by
  have hrun : State.reset.failed = false := rfl
  have hsize (c : Bool) := sizeCheckFirst State.reset c hrun State.reset_size_underflow
  obtain ⟨-, -, hscan⟩ := hsize false
  refine ⟨fun c => (hsize c).left, fun c => ?_, hscan, fun i => ?_, ?_, fun b => ?_, ?_⟩
  · obtain ⟨-, hdec, -⟩ := hsize c
    exact hdec
  · obtain ⟨-, -, hbeyond⟩ := ksrdReadsDefinedBytesOnly State.reset i hrun
    exact hbeyond (Nat.zero_le i)
  · exact ksgenWithoutPasswordIsTheRamp State.reset hrun rfl
  · rw [exec, execCrcb, command_of_running hrun]
    rfl
  · exact congrArg some State.reset_digest

end Sys2Proof.Machine
end
